-- ==== Sys2Proof/Word.lean ====
section
/-! DEFINITION. The words of the PrimeEncoding codec block (PEB): a byte, a fragment, the decoder's working product and the
command word. Bit 0 is the least significant bit of every value and nothing is signed (00_scope.md R8). -/

namespace Sys2Proof

/-- A byte, `BYTE_W` = 8 bits (00_scope.md R6). -/
abbrev Byte := BitVec 8

/-- A fragment, `FRAG_W` = 64 bits: a bit-set over slot positions (30_encoding.md R81). -/
abbrev Frag := BitVec 64

/-- The decoders' working product, `ACC_W` = 16 bits (43_fragment_decoder.md R122). -/
abbrev Acc := BitVec 16

/-- A command word, `CMD_W` = 72 bits (30_encoding.md R70). -/
abbrev CmdWord := BitVec 72

/-- A register number of the read port, 10 bits (10_state.md R34). -/
abbrev RegNum := BitVec 10

end Sys2Proof
end

