-- ==== Sys2Proof/Config.lean ====
section
/-! DEFINITION. The parameters of the block (00_scope.md R6): constants fixed before reset, no state (10_state.md R42,
70_reset_and_hazards.md R213). The prime table itself is Machine/PrimeTable.lean. -/

namespace Sys2Proof.Config

/-- `BOUND`: exclusive upper limit of the primes in the table (00_scope.md R6). -/
abbrev bound : Nat := 255

/-- `K`: the number of primes in the table (41_factorizer.md R101). -/
abbrev numPrimes : Nat := 54

/-- `NSLOT`: the exponent-vector length `K + 1` (00_scope.md R6). -/
abbrev numSlots : Nat := 55

/-- `FQ_DEPTH`: most fragments the queue holds (00_scope.md R6, 10_state.md R30). -/
abbrev queueDepth : Nat := 255

/-- `LINE_TERM`: the byte that ends a text line (00_scope.md R6). -/
abbrev lineTerm : Byte := 0x0A

/-- The two values of the parameter `FRAG_BYTE_ORDER` (20_memory.md R52). -/
inductive ByteOrder where
  | little
  | big
deriving DecidableEq, Repr

/-- `FRAG_BYTE_ORDER`, an OPEN parameter that "cannot be switched at run time" (20_memory.md R52): the block has the
spec's default. DESIGN CHOICE (log 4; D11 allows it), unsafe for files of the original program: the codec functions take the
order as an argument, so a statement can be made for both values. -/
def fragByteOrder : ByteOrder := .little

end Sys2Proof.Config
end

