-- ==== Sys2Proof/Syntax.lean ====
section
/-! DEFINITION. The twelve commands of the block (30_encoding.md R72, spec/opcode_table.json), one constructor per row. The
operands are the unsigned fields of the command word as they stand (30_encoding.md R73); no command names a register. -/

namespace Sys2Proof

/-- A command of the block. -/
inductive Instr where
  /-- `NOP` (46_host_commands.md R165). -/
  | nop
  /-- `LDB imm8` (46_host_commands.md R166). -/
  | ldb (imm8 : Byte)
  /-- `LDEV idx, val` (46_host_commands.md R167). -/
  | ldev (idx val : Byte)
  /-- `PUSHF frag` (46_host_commands.md R168). -/
  | pushf (frag : Frag)
  /-- `CLRF` (46_host_commands.md R169). -/
  | clrf
  /-- `FACT` (41_factorizer.md R103). -/
  | fact
  /-- `FENC` (42_fragment_encoder.md R110). -/
  | fenc
  /-- `FDEC` (43_fragment_decoder.md R120). -/
  | fdec
  /-- `TFMT` (44_text_codec.md R130). -/
  | tfmt
  /-- `TPRS` (44_text_codec.md R136). -/
  | tprs
  /-- `BFMT` (45_binary_codec.md R150). -/
  | bfmt
  /-- `BPRS` (45_binary_codec.md R154). -/
  | bprs
deriving DecidableEq, Repr

/-- The mnemonic of a command, as the assembler notation writes it (30_encoding.md R77). -/
def Instr.mnemonic : Instr → String
  | .nop => "NOP"
  | .ldb _ => "LDB"
  | .ldev _ _ => "LDEV"
  | .pushf _ => "PUSHF"
  | .clrf => "CLRF"
  | .fact => "FACT"
  | .fenc => "FENC"
  | .fdec => "FDEC"
  | .tfmt => "TFMT"
  | .tprs => "TPRS"
  | .bfmt => "BFMT"
  | .bprs => "BPRS"

end Sys2Proof
end

