-- ==== Sys2Proof/WellFormed.lean ====
section
/-! DEFINITION. Well-formed commands: every operand is in the range the spec calls legal. The fields have the widths of the
command word, so the one check left is LDEV's slot number (30_encoding.md R73: "of which only 0 to 54 is legal"). An ill-formed
LDEV is still a command with definite operands (30_encoding.md R76): it decodes, and running it raises `IllegalOperand`. -/

namespace Sys2Proof

/-- Whether the operands of a command are legal (46_host_commands.md R167). -/
def Instr.wellFormed : Instr → Bool
  | .nop => true
  | .ldb _ => true
  | .ldev idx _ => decide (idx.toNat < Config.numSlots)
  | .pushf _ => true
  | .clrf => true
  | .fact => true
  | .fenc => true
  | .fdec => true
  | .tfmt => true
  | .tprs => true
  | .bfmt => true
  | .bprs => true

end Sys2Proof
end

