-- ==== Sys2Proof/Decode.lean ====
section
/-! DEFINITION. Decoding of the 72-bit command word, total on every word and rejecting by name (30_encoding.md R70 to R76), the
encoder written from the same tables, and the rows of spec/opcode_table.json. The command word is a port value, not a byte
sequence, so it has no byte order (20_memory.md R53). -/

namespace Sys2Proof

/-- Why a command word is illegal; both raise `IllegalCommand`, in this order of checks (30_encoding.md R76). -/
inductive DecodeError where
  /-- The opcode is one of 0x0C to 0xFF (30_encoding.md R74). -/
  | reservedOpcode
  /-- A must-be-zero bit is set (30_encoding.md R75). -/
  | nonZeroMbz
deriving DecidableEq, Repr

/-- The opcode field `cmd[7:0]` (30_encoding.md R70). -/
def opcodeField (w : CmdWord) : Byte := w.extractLsb' 0 8

/-- The argument field `cmd[71:8]`, which is also the operand `frag` of format F (30_encoding.md R70, R73). -/
def argField (w : CmdWord) : Frag := w.extractLsb' 8 64

/-- `cmd[15:8]`: `imm8` of format B and `idx` of format S (30_encoding.md R71). -/
def lowByteField (w : CmdWord) : Byte := w.extractLsb' 8 8

/-- `cmd[23:16]`: `val` of format S (30_encoding.md R71). -/
def highByteField (w : CmdWord) : Byte := w.extractLsb' 16 8

/-- `cmd[71:16]`, the must-be-zero bits of format B (30_encoding.md R71). -/
def mbzFieldB (w : CmdWord) : BitVec 56 := w.extractLsb' 16 56

/-- `cmd[71:24]`, the must-be-zero bits of format S (30_encoding.md R71). -/
def mbzFieldS (w : CmdWord) : BitVec 48 := w.extractLsb' 24 48

/-- Format N: no operand, `cmd[71:8]` must be zero (30_encoding.md R71, R75). -/
def decodeN (w : CmdWord) (i : Instr) : Except DecodeError Instr :=
  if argField w = 0 then .ok i else .error .nonZeroMbz

/-- Format B: one byte, `cmd[71:16]` must be zero (30_encoding.md R71, R75). -/
def decodeB (w : CmdWord) (f : Byte → Instr) : Except DecodeError Instr :=
  if mbzFieldB w = 0 then .ok (f (lowByteField w)) else .error .nonZeroMbz

/-- Format S: slot and value, `cmd[71:24]` must be zero (30_encoding.md R71, R75). -/
def decodeS (w : CmdWord) (f : Byte → Byte → Instr) : Except DecodeError Instr :=
  if mbzFieldS w = 0 then .ok (f (lowByteField w) (highByteField w)) else .error .nonZeroMbz

/-- Format F: one fragment, no must-be-zero bit (30_encoding.md R71; 46_host_commands.md R168). -/
def decodeF (w : CmdWord) (f : Frag → Instr) : Except DecodeError Instr :=
  .ok (f (argField w))

/-- The opcode map (30_encoding.md R72); every other opcode is reserved (R74). -/
def decode (w : CmdWord) : Except DecodeError Instr :=
  match (opcodeField w).toNat with
  | 0x00 => decodeN w .nop
  | 0x01 => decodeB w .ldb
  | 0x02 => decodeS w .ldev
  | 0x03 => decodeF w .pushf
  | 0x04 => decodeN w .clrf
  | 0x05 => decodeN w .fact
  | 0x06 => decodeN w .fenc
  | 0x07 => decodeN w .fdec
  | 0x08 => decodeN w .tfmt
  | 0x09 => decodeN w .tprs
  | 0x0A => decodeN w .bfmt
  | 0x0B => decodeN w .bprs
  | _ => .error .reservedOpcode

/-- The word of a command: its opcode below its operands, every must-be-zero bit zero (30_encoding.md R71, R72). -/
def encode : Instr → CmdWord
  | .nop => 0#64 ++ 0x00#8
  | .ldb imm8 => 0#56 ++ imm8 ++ 0x01#8
  | .ldev idx val => 0#48 ++ val ++ idx ++ 0x02#8
  | .pushf frag => frag ++ 0x03#8
  | .clrf => 0#64 ++ 0x04#8
  | .fact => 0#64 ++ 0x05#8
  | .fenc => 0#64 ++ 0x06#8
  | .fdec => 0#64 ++ 0x07#8
  | .tfmt => 0#64 ++ 0x08#8
  | .tprs => 0#64 ++ 0x09#8
  | .bfmt => 0#64 ++ 0x0A#8
  | .bprs => 0#64 ++ 0x0B#8

/-- A row of spec/opcode_table.json: a word selects it when `(w & mask) = match` (30_encoding.md R75, R80). -/
structure OpcodeRow where
  mnemonic : String
  matchBits : CmdWord
  mask : CmdWord
deriving DecidableEq, Repr

/-- Whether a word selects a row (30_encoding.md R75). -/
def OpcodeRow.selects (r : OpcodeRow) (w : CmdWord) : Bool := (w &&& r.mask) == r.matchBits

/-- The twelve rows of spec/opcode_table.json (30_encoding.md R80). -/
def opcodeTable : List OpcodeRow :=
  [ ⟨"NOP",   0x000000000000000000, 0xFFFFFFFFFFFFFFFFFF⟩,
    ⟨"LDB",   0x000000000000000001, 0xFFFFFFFFFFFFFF00FF⟩,
    ⟨"LDEV",  0x000000000000000002, 0xFFFFFFFFFFFF0000FF⟩,
    ⟨"PUSHF", 0x000000000000000003, 0x0000000000000000FF⟩,
    ⟨"CLRF",  0x000000000000000004, 0xFFFFFFFFFFFFFFFFFF⟩,
    ⟨"FACT",  0x000000000000000005, 0xFFFFFFFFFFFFFFFFFF⟩ ] ++
  [ ⟨"FENC",  0x000000000000000006, 0xFFFFFFFFFFFFFFFFFF⟩,
    ⟨"FDEC",  0x000000000000000007, 0xFFFFFFFFFFFFFFFFFF⟩,
    ⟨"TFMT",  0x000000000000000008, 0xFFFFFFFFFFFFFFFFFF⟩,
    ⟨"TPRS",  0x000000000000000009, 0xFFFFFFFFFFFFFFFFFF⟩,
    ⟨"BFMT",  0x00000000000000000A, 0xFFFFFFFFFFFFFFFFFF⟩,
    ⟨"BPRS",  0x00000000000000000B, 0xFFFFFFFFFFFFFFFFFF⟩ ]

/-- The host's view of the decoder: the command in the low `nbits` bits of `w`, the bits above them zero; a command word has 72
bits, numbered as spec/opcode_table.json numbers them. -/
def decodeTableWord (nbits w : Nat) : Option Instr :=
  match decode (BitVec.ofNat 72 (w % 2 ^ nbits)) with
  | .ok i => some i
  | .error _ => none

end Sys2Proof
end

