-- ==== Sys2Proof/Machine/State.lean ====
section
/-! DEFINITION. The machine's state as plain data, `Block` (10_state.md R20), the host's side that a step is given beside it
(10_state.md R42, log 1), the reasons a step can stop, and the state after reset (10_state.md R39). `PT` is a constant of the machine (70_reset_and_hazards.md R211, log 3: Machine/PrimeTable.lean) and `FCNT`
is the length of `fq` (10_state.md R27), so neither is a field. -/

namespace Sys2Proof.Machine

/-- The exponent vector `EV[0..54]`: 55 registers of 8 bits (10_state.md R22). -/
abbrev ExpVec := Vector Byte Config.numSlots

/-- The causes a command can raise (60_exceptions.md R180). With "no fault" they are the eight values of `STATUS.ERR`. -/
inductive Cause where
  | illegalCommand
  | illegalOperand
  | factorResidue
  | accRange
  | readFailure
  | corruption
  | queueOverflow
deriving DecidableEq, Repr

/-- The host-driven input status `IST` (10_state.md R32). -/
inductive InputStatus where
  /-- `OPEN`: the host may still append bytes. -/
  | opened
  /-- `EOS`: the stream ended cleanly after the last byte of `IBUF`. -/
  | eos
  /-- `ERR`: the stream failed after the last byte of `IBUF`. -/
  | err
deriving DecidableEq, Repr

/-- The two commands that can hold (60_exceptions.md R190). -/
inductive ParseCommand where
  | tprs
  | bprs
deriving DecidableEq, Repr

/-- What the host may do, one row of 10_state.md R36 each; closing the input has a constructor for each of its two ways. -/
inductive HostMove where
  /-- Present a command word on the port `cmd`. -/
  | command (w : CmdWord)
  /-- Append a byte to `IBUF`. -/
  | append (b : Byte)
  /-- Close the input: `IST <- EOS`. -/
  | endInput
  /-- Close the input: `IST <- ERR`. -/
  | failInput
  /-- Remove `n` bytes from the front of `OBUF`. -/
  | drain (n : Nat)
  /-- Read a register through the read port. -/
  | readReg (n : RegNum)
  /-- Assert `rst`. -/
  | assertReset
deriving DecidableEq, Repr

/-- The machine's state: "the whole state of the block", and "nothing else is state" (10_state.md R20). The command list and the
parameters of 00_scope.md R6 are no field of it (10_state.md R42). -/
structure Block where
  /-- `B`, the byte register (10_state.md R21). -/
  b : Byte
  /-- `EV[0..54]`, the exponent vector (10_state.md R22). -/
  ev : ExpVec
  /-- `FQ`, the fragment queue, first fragment first (10_state.md R30). -/
  fq : List Frag
  /-- `STATUS.ERR`: no fault, or the cause of the first one (10_state.md R25; 93_implementation_defined.md U6). -/
  err : Option Cause
  /-- `STATUS.EOS` (10_state.md R26). -/
  eos : Bool
  /-- `IBUF`, front first (10_state.md R32). -/
  ibuf : List Byte
  /-- `IST` (10_state.md R32). -/
  ist : InputStatus
  /-- `OBUF`, oldest byte first (10_state.md R32). -/
  obuf : List Byte
deriving DecidableEq, Repr

/-- What one step is given: the block, and beside it the host's side of the ports, which is an argument of the model and no field
of the machine's state (10_state.md R42). The two stand in one type because a step of this package takes one value (log 1). -/
structure State extends Block where
  /-- The parse command that was presented and holds, if one does (60_exceptions.md R190). DESIGN CHOICE, the model's own field
  (log 2), safe: the spec says only that a holding command has no step yet. -/
  held : Option ParseCommand
  /-- The command list and the host's other moves from here on, in the one total order of 20_memory.md R60: an argument, no state
  of the block (10_state.md R42). DESIGN CHOICE (log 1), safe: any list of moves may stand here, and no command reads or writes
  it. -/
  script : List HostMove
deriving DecidableEq, Repr

/-- Why the machine stops for good. -/
inductive Fault where
  /-- Raised by `step` when a parse command holds and the host makes no further move: "a hang, not an end of a run"
  (60_exceptions.md R190, 93_implementation_defined.md U15). Safe: there is nothing the block could do (log 6). -/
  | holdNeverLifted
deriving DecidableEq, Repr

/-- Why the model gives no step. -/
inductive Refusal where
  /-- Raised by no arm: every command has its meaning. Safe. -/
  | notModelled (mnemonic : String)
  /-- Raised by `step` when the host presents nothing: a step is one command (00_scope.md R14), so there is none. Safe (log 6). -/
  | noCommandPresented
  /-- Raised by `step` on a read of a reserved register number or of `FQ[j]` with `j >= FCNT`: "has no meaning: the model refuses
  it" (10_state.md R35). Safe. -/
  | noSuchRegister
  /-- Raised by `step` when the host appends to or closes an input that is not `OPEN`, which it may not do (10_state.md R36;
  93_implementation_defined.md U9). Safe. -/
  | inputNotOpen
  /-- Raised by `step` when the host does anything but append or close while a command holds (10_state.md R38). Safe (log 7). -/
  | moveDuringHold
deriving DecidableEq, Repr

/-- The block after reset (10_state.md R39, 70_reset_and_hazards.md R210). -/
def Block.reset : Block where
  b := 0
  ev := Vector.replicate Config.numSlots 0
  fq := []
  err := none
  eos := false
  ibuf := []
  ist := .opened
  obuf := []

/-- The block after reset; the host has presented nothing, so no command holds (log 1, log 2). -/
def State.reset : State where
  toBlock := Block.reset
  held := none
  script := []

end Sys2Proof.Machine
end

