-- ==== Sys2Proof/Machine/Ops.lean ====
section
/-! DEFINITION. The named operations on the state: raising a fault, the guard of the faulted block, writes of registers, the
stream primitives (00_scope.md R10) and the host's moves on the state (10_state.md R36). Every meaning changes the state through
these alone. -/

namespace Sys2Proof.Machine

/-- What a step or a meaning answers. -/
abbrev Result := Host.Outcome State Fault Refusal

/-- `raise`: `STATUS.ERR` takes the cause and no other state changes (00_scope.md R11, 60_exceptions.md R184). This is taking an
exception on this block: there is no handler, no saved state, no mode and no return; only reset leaves the faulted state
(60_exceptions.md R184, R187). -/
def raiseFault (c : Cause) (s : State) : State := { s with err := some c }

/-- A command on the block: a faulted block refuses every command, and that step changes nothing (60_exceptions.md R184; log 5). -/
def unlessFaulted (s : State) (act : State → Result) : Result :=
  match s.err with
  | some _ => .next s
  | none => act s

/-- `B <- v`. -/
def setB (v : Byte) (s : State) : State := { s with b := v }

/-- `EV[0..54] <- v`. -/
def setEv (v : ExpVec) (s : State) : State := { s with ev := v }

/-- `EV[i] <- v`, the other slots unchanged. -/
def setSlot (i : Fin Config.numSlots) (v : Byte) (s : State) : State := { s with ev := s.ev.set i v }

/-- `FQ <- q`, and so `FCNT` (10_state.md R27). -/
def setFq (q : List Frag) (s : State) : State := { s with fq := q }

/-- `STATUS.EOS <- v` (10_state.md R26). -/
def setEos (v : Bool) (s : State) : State := { s with eos := v }

/-- `OutPut(bytes)`: `OBUF <- OBUF ++ bytes` (00_scope.md R10). -/
def outPut (bytes : List Byte) (s : State) : State := { s with obuf := s.obuf ++ bytes }

/-- `InTake(n)`: the first `n` bytes leave `IBUF` (00_scope.md R10). -/
def inTake (n : Nat) (s : State) : State := { s with ibuf := s.ibuf.drop n }

/-- A hold: the command has made no change and has no step yet; it stays on the port (60_exceptions.md R190; log 2). -/
def holdOn (c : ParseCommand) (s : State) : State := { s with held := some c }

/-- The port is free for the command's next attempt or for the next command. -/
def releaseHold (s : State) : State := { s with held := none }

/-- The outcome of looking for a unit (a line or a record) in the input (44_text_codec.md R137, 45_binary_codec.md R155). -/
inductive Take where
  /-- A complete unit stands at the front of `IBUF`; `n` is the line's length, or the record's count. -/
  | found (n : Nat)
  /-- The clean end of the input. -/
  | endOfInput
  /-- The command holds. -/
  | holds
  /-- The command raises. -/
  | fails (c : Cause)
deriving DecidableEq, Repr

/-- What TPRS and BPRS share (44_text_codec.md R136, 45_binary_codec.md R154): a clean end of input sets `STATUS.EOS` and changes
nothing else, a hold keeps the command on the port, a failure raises, and a unit found is given to `consume`. -/
def parseUnit (c : ParseCommand) (outcome : Take) (consume : Nat → State → Result) (s : State) : Result :=
  match outcome with
  | .found n => consume n s
  | .endOfInput => .next (setEos true s)
  | .holds => .next (holdOn c s)
  | .fails cause => .next (raiseFault cause s)

/-- The host appends a byte: `IBUF <- IBUF ++ [b]` (10_state.md R36). -/
def appendInput (b : Byte) (s : State) : State := { s with ibuf := s.ibuf ++ [b] }

/-- The host closes the input: `IST <- EOS` or `IST <- ERR` (10_state.md R36). -/
def closeInput (ist : InputStatus) (s : State) : State := { s with ist := ist }

/-- The host removes bytes from the front of `OBUF` (10_state.md R36); of a number above the length, all there are (DESIGN
CHOICE, safe: log 7). -/
def drainOutput (n : Nat) (s : State) : State := { s with obuf := s.obuf.drop n }

/-- The host asserts `rst`: every piece of the block's state takes its reset value (70_reset_and_hazards.md R210); what the host
does next is the host's. -/
def resetBlock (s : State) : State := { State.reset with script := s.script }

/-- The host's moves from here on are `moves`. -/
def setScript (moves : List HostMove) (s : State) : State := { s with script := moves }

/-- The model's arguments put beside the block: the host's moves are `moves` and nothing holds yet (10_state.md R42; log 1). -/
def withHost (moves : List HostMove) (k : Block) : State := { toBlock := k, held := none, script := moves }

/-- The same outcome, with the host's list `moves` beside the block it leaves. -/
def carryScript (moves : List HostMove) (r : Result) : Result :=
  match r with
  | .next s => .next (setScript moves s)
  | .fault e => .fault e
  | .refused e => .refused e

end Sys2Proof.Machine
end

