-- ==== Sys2Proof/Machine/Flags.lean ====
section
/-! DEFINITION. The status the block computes from its state: the codes of the causes, the `STATUS` word, `FCNT` and the `fault`
wire. There are no arithmetic flags (10_state.md R28). -/

namespace Sys2Proof.Machine

/-- The code of a cause in `STATUS.ERR` (60_exceptions.md R180). -/
def causeCode : Cause → BitVec 4
  | .illegalCommand => 1
  | .illegalOperand => 2
  | .factorResidue => 3
  | .accRange => 4
  | .readFailure => 5
  | .corruption => 6
  | .queueOverflow => 7

/-- `STATUS.ERR`, 0 for no fault (10_state.md R24, R25). -/
def errCode (s : State) : BitVec 4 :=
  match s.err with
  | none => 0
  | some c => causeCode c

/-- The 64-bit read value of `STATUS`: `ERR` in bits 3:0, `EOS` in bit 4, zero above (10_state.md R24). -/
def statusWord (s : State) : BitVec 64 := 0#59 ++ BitVec.ofBool s.eos ++ errCode s

/-- `FCNT`, the length of `FQ` (10_state.md R27). -/
def fcnt (s : State) : Byte := BitVec.ofNat 8 s.fq.length

/-- The output wire `fault`: 1 exactly when `STATUS.ERR` is not 0 (60_exceptions.md R192). -/
def faultWire (s : State) : Bool := errCode s != 0

end Sys2Proof.Machine
end

