-- ==== Sys2Proof/Machine/PrimeTable.lean ====
section
/-! DEFINITION. The prime table `PT` (41_factorizer.md R100, R101): a constant of the machine (70_reset_and_hazards.md R211,
92_eei_decisions.md D33), given as the list of R101, beside the sieve of R100 it must equal. -/

namespace Sys2Proof.Machine

/-- One number of the sieve: it joins the table when no prime found so far divides it (41_factorizer.md R100). -/
def sieveStep (table : List Nat) (n : Nat) : List Nat :=
  if table.any (fun p => n % p == 0) then table else table ++ [n]

/-- The primes below `bound` by trial division against the primes already found (41_factorizer.md R100). -/
def sieve (bound : Nat) : List Nat := (List.range' 2 (bound - 2)).foldl sieveStep []

/-- `PT[0..53]` (41_factorizer.md R101). -/
def primeTable : List Byte :=
  [2, 3, 5, 7, 11, 13, 17, 19, 23, 29, 31, 37, 41, 43, 47, 53, 59, 61] ++
  [67, 71, 73, 79, 83, 89, 97, 101, 103, 107, 109, 113, 127, 131, 137, 139, 149, 151] ++
  [157, 163, 167, 173, 179, 181, 191, 193, 197, 199, 211, 223, 227, 229, 233, 239, 241, 251]

/-- The prime a slot belongs to: none for the unity slot 0, `PT[s-1]` for a slot `s >= 1` (00_scope.md R18). -/
def slotPrime : Nat → Option Byte
  | 0 => none
  | s + 1 => primeTable[s]?

end Sys2Proof.Machine
end

