-- ==== Sys2Proof/Machine/Operands.lean ====
section
/-! DEFINITION. Operand forms. Immediates are the unsigned fields of the command word as they stand (30_encoding.md R73), so the
one form with a check is a slot number; and the register numbers of the read port (10_state.md R34), which the host, not a
command, uses as operands. -/

namespace Sys2Proof.Machine

/-- The slot an operand or a token names: numbers above 54 name none (46_host_commands.md R167, 44_text_codec.md R138). -/
def slotOf (n : Nat) : Option (Fin Config.numSlots) :=
  if h : n < Config.numSlots then some ⟨n, h⟩ else none

/-- A host read through the read port: the register zero-extended to 64 bits; nothing for a reserved number and for `FQ[j]` with
`j >= FCNT` (10_state.md R34, R35; 20_memory.md R51). It changes nothing (20_memory.md R56). -/
def readRegister (r : RegNum) (s : State) : Option (BitVec 64) :=
  let n := r.toNat
  if n = 0x000 then some (statusWord s)
  else if n = 0x001 then some (s.b.setWidth 64)
  else if n = 0x002 then some ((fcnt s).setWidth 64)
  else if n < 0x040 then none
  else if n < 0x077 then s.ev[n - 0x040]?.map (·.setWidth 64)
  else if n < 0x080 then none
  else if n < 0x0B6 then primeTable[n - 0x080]?.map (·.setWidth 64)
  else if n < 0x100 then none
  else if n < 0x1FF then s.fq[n - 0x100]?
  else none

end Sys2Proof.Machine
end

