-- ==== Sys2Proof/Machine/BinaryCodec.lean ====
section
/-! DEFINITION. The binary formatter and parser, BFMT and BPRS (45_binary_codec.md R150 to R157; the record is 30_encoding.md
R83). The byte order of a fragment is an argument; the machine gives it the block's (20_memory.md R52, log 4). -/

namespace Sys2Proof.Machine

/-- `LE8(v)`: the 8 bytes of a fragment, bits 7:0 first (00_scope.md R10). -/
def le8 (f : Frag) : List Byte := (List.range 8).map fun k => f.extractLsb' (8 * k) 8

/-- The number whose base-256 digits are the bytes, least significant first. -/
def bytesToNat : List Byte → Nat
  | [] => 0
  | b :: bs => b.toNat + 256 * bytesToNat bs

/-- `unLE8(s)`, the inverse of `LE8` (00_scope.md R10). -/
def unLe8 (bytes : List Byte) : Frag := BitVec.ofNat 64 (bytesToNat bytes)

/-- Under `big` the same 8 bytes stand in reverse order (00_scope.md R10, 20_memory.md R52). -/
def inByteOrder (o : Config.ByteOrder) (bytes : List Byte) : List Byte :=
  match o with
  | .little => bytes
  | .big => bytes.reverse

/-- The 8-byte field of a fragment in a record (20_memory.md R52). -/
def fragmentField (o : Config.ByteOrder) (f : Frag) : List Byte := inByteOrder o (le8 f)

/-- The fragment of an 8-byte field (20_memory.md R52). -/
def fieldFragment (o : Config.ByteOrder) (bytes : List Byte) : Frag := unLe8 (inByteOrder o bytes)

/-- A record: the count byte, then the field of each fragment, first fragment first (30_encoding.md R83, 45_binary_codec.md R150). -/
def formatRecord (o : Config.ByteOrder) (q : List Frag) : List Byte :=
  BitVec.ofNat 8 q.length :: q.flatMap (fragmentField o)

/-- BFMT: append the record of `FQ` (45_binary_codec.md R150). -/
def execBfmt (s : State) : Result :=
  unlessFaulted s fun s => .next (outPut (formatRecord Config.fragByteOrder s.fq) s)

/-- The bytes a record of count `n` takes (30_encoding.md R84). -/
def recordLength (n : Nat) : Nat := 1 + 8 * n

/-- `takeRecord()`: a complete record is taken whatever `IST` is; a short one holds, is `Corruption` or is `ReadFailure` by `IST`
(45_binary_codec.md R155, R157). -/
def takeRecord (ibuf : List Byte) (ist : InputStatus) : Take :=
  match ibuf, ist with
  | [], .opened => .holds
  | [], .eos => .endOfInput
  | [], .err => .fails .readFailure
  | n :: rest, ist =>
    if recordLength n.toNat ≤ (n :: rest).length then .found n.toNat
    else
      match ist with
      | .opened => .holds
      | .eos => .fails .corruption
      | .err => .fails .readFailure

/-- The first `n` fragments of a sequence of 8-byte fields (45_binary_codec.md R154). -/
def readFragments (o : Config.ByteOrder) : Nat → List Byte → List Frag
  | 0, _ => []
  | n + 1, bytes => fieldFragment o (bytes.take 8) :: readFragments o n (bytes.drop 8)

/-- What BPRS does with the record of count `n` at the front of `IBUF`: all 64 bits of each fragment are stored
(45_binary_codec.md R154, R158). -/
def consumeRecord (n : Nat) (s : State) : Result :=
  .next (setEos false (inTake (recordLength n) (setFq (readFragments Config.fragByteOrder n (s.ibuf.drop 1)) s)))

/-- BPRS: read one binary record from `IBUF` into `FQ` (45_binary_codec.md R154). -/
def execBprs (s : State) : Result :=
  unlessFaulted s fun s => parseUnit .bprs (takeRecord s.ibuf s.ist) consumeRecord s

end Sys2Proof.Machine
end

