-- ==== Sys2Proof/Machine/Factorizer.lean ====
section
/-! DEFINITION. The factorizer and FACT (41_factorizer.md R102, R103). The arithmetic is over the naturals; R104 shows that 8 bits
hold every value. -/

namespace Sys2Proof.Machine

/-- The inner loop of R102: divide `p` out of `r` as often as it divides, and say how often. Each division at least halves `r`
(41_factorizer.md R104), so `fuel` 8 is enough for a byte. -/
def divideOut (p : Nat) : Nat → Nat → Nat × Nat
  | 0, r => (r, 0)
  | fuel + 1, r =>
    if r % p = 0 then
      let (r', n) := divideOut p fuel (r / p)
      (r', n + 1)
    else (r, 0)

/-- The outer loop of R102: the multiplicity of each prime in turn, and the remaining value. -/
def sweep : List Byte → Nat → List Byte × Nat
  | [], r => ([], r)
  | p :: ps, r =>
    let (r', n) := divideOut p.toNat 8 r
    let (counts, last) := sweep ps r'
    (BitVec.ofNat 8 n :: counts, last)

/-- The sweep gives one multiplicity for each prime. -/
theorem sweep_length (ps : List Byte) (r : Nat) : (sweep ps r).1.length = ps.length := by
  induction ps generalizing r with
  | nil => rfl
  | cons p ps ih => simp [sweep, ih]

/-- The vector of 55 slots whose slot 0 is `unity` and whose prime slots hold the multiplicities of a sweep. -/
def slotsOfSweep (unity : Byte) (r : Nat) : ExpVec :=
  ⟨(unity :: (sweep primeTable r).1).toArray, by
    simp only [List.size_toArray, List.length_cons, sweep_length]; rfl⟩

/-- The vector with every slot 0: the sentinel of byte 0 (41_factorizer.md R102). -/
def zeroVec : ExpVec := Vector.replicate Config.numSlots 0

/-- `factorize(b)` (41_factorizer.md R102). The residue check stays although it cannot fire (R107). -/
def factorize (b : Byte) : Except Cause ExpVec :=
  if b = 0 then .ok zeroVec
  else if b = 1 then .ok (zeroVec.set 0 1)
  else
    let r := (sweep primeTable b.toNat).2
    if r ≠ 1 ∧ r ≠ 0 then .error .factorResidue
    else .ok (slotsOfSweep 0 b.toNat)

/-- FACT: `EV <- factorize(B)` (41_factorizer.md R103). -/
def execFact (s : State) : Result :=
  unlessFaulted s fun s =>
    match factorize s.b with
    | .ok ev => .next (setEv ev s)
    | .error c => .next (raiseFault c s)

end Sys2Proof.Machine
end

