-- ==== Sys2Proof/Machine/FragmentDecoder.lean ====
section
/-! DEFINITION. The fragment decoder and FDEC (43_fragment_decoder.md R120 to R122), with the checked multiplication that the
text parser shares (44_text_codec.md R139). -/

namespace Sys2Proof.Machine

/-- One checked multiplication: a 16-bit product, exact for an accumulator of at most 255, and `AccRange` above 255
(43_fragment_decoder.md R122). -/
def mulChecked (acc : Acc) (p : Byte) : Except Cause Acc :=
  let prod := acc * p.setWidth 16
  if 255 < prod.toNat then .error .accRange else .ok prod

/-- The locals of `toByte`: the accumulator and whether any bit at positions 0 to 54 was set (43_fragment_decoder.md R121, R124). -/
structure DecodeState where
  acc : Acc
  seen : Bool
deriving DecidableEq, Repr

/-- One set bit: it sets `seen`; a prime bit multiplies, the unity bit does not (43_fragment_decoder.md R121, R124). -/
def visitSlot (d : DecodeState) (i : Nat) : Except Cause DecodeState :=
  match slotPrime i with
  | none => .ok { d with seen := true }
  | some p =>
    match mulChecked d.acc p with
    | .ok acc => .ok { acc := acc, seen := true }
    | .error c => .error c

/-- One fragment: its set bits at positions 0 to 54 in ascending order; bits 55 to 63 are not looked at
(43_fragment_decoder.md R121, 30_encoding.md R82). -/
def visitFragment (d : DecodeState) (f : Frag) : Except Cause DecodeState :=
  ((List.range Config.numSlots).filter fun i => f.getLsbD i).foldlM visitSlot d

/-- `toByte(seq)` (43_fragment_decoder.md R121). -/
def toByte (seq : List Frag) : Except Cause Byte :=
  match seq.foldlM visitFragment { acc := 1, seen := false } with
  | .ok d => .ok (if d.seen then d.acc.setWidth 8 else 0)
  | .error c => .error c

/-- FDEC: `B <- toByte(FQ)`, or `AccRange` with `B` as it was (43_fragment_decoder.md R120). -/
def execFdec (s : State) : Result :=
  unlessFaulted s fun s =>
    match toByte s.fq with
    | .ok v => .next (setB v s)
    | .error c => .next (raiseFault c s)

end Sys2Proof.Machine
end

