-- ==== Sys2Proof/Machine/FragmentEncoder.lean ====
section
/-! DEFINITION. The fragment encoder and FENC (42_fragment_encoder.md R110 to R112). -/

namespace Sys2Proof.Machine

/-- The number whose bit `i` is the `i`-th of a list of bits (00_scope.md R8). -/
def bitsToNat : List Bool → Nat
  | [] => 0
  | b :: bs => b.toNat + 2 * bitsToNat bs

/-- The fragment of a pass: bit `i` is set when slot `i` is positive (42_fragment_encoder.md R112); bits 55 to 63 are 0. -/
def passFragment (v : List Byte) : Frag := BitVec.ofNat 64 (bitsToNat (v.map fun x => decide (0 < x.toNat)))

/-- What a pass does to one slot: a positive slot is decremented once, a zero slot stays (42_fragment_encoder.md R112). -/
def decSlot (x : Byte) : Byte := if 0 < x.toNat then x - 1 else x

/-- What a pass leaves of the vector: every positive slot decremented once (42_fragment_encoder.md R112). -/
def passRest (v : List Byte) : List Byte := v.map decSlot

/-- The do-while loop of R112: emit the pass's fragment, then stop if every slot is 0. Each pass lowers the largest slot, so for
8-bit slots `fuel` 255 is enough (42_fragment_encoder.md R113). -/
def peel : Nat → List Byte → List Frag
  | 0, _ => []
  | fuel + 1, v =>
    let rest := passRest v
    passFragment v :: (if rest.all (· == 0) then [] else peel fuel rest)

/-- `toFragments(v)`: the fragments, first pass first (42_fragment_encoder.md R112, R116). The vector the loop leaves is all zero
(R111). -/
def toFragments (v : ExpVec) : List Frag := peel 255 v.toList

/-- FENC: `FQ <- toFragments(EV)`, and `EV` is left all zero (42_fragment_encoder.md R110, R111). -/
def execFenc (s : State) : Result :=
  unlessFaulted s fun s => .next (setEv zeroVec (setFq (toFragments s.ev) s))

end Sys2Proof.Machine
end

