-- ==== Sys2Proof/Machine/HostAccess.lean ====
section
/-! DEFINITION. The host access commands NOP, LDB, LDEV, PUSHF, CLRF (46_host_commands.md R165 to R171). -/

namespace Sys2Proof.Machine

/-- NOP: nothing (46_host_commands.md R165). -/
def execNop (s : State) : Result := unlessFaulted s fun s => .next s

/-- LDB: `B <- imm8` (46_host_commands.md R166). -/
def execLdb (imm8 : Byte) (s : State) : Result := unlessFaulted s fun s => .next (setB imm8 s)

/-- LDEV: `EV[idx] <- val`, or `IllegalOperand` when no slot has the number `idx` (46_host_commands.md R167). -/
def execLdev (idx val : Byte) (s : State) : Result :=
  unlessFaulted s fun s =>
    match slotOf idx.toNat with
    | some i => .next (setSlot i val s)
    | none => .next (raiseFault .illegalOperand s)

/-- PUSHF: append a fragment, all 64 bits of it, or `QueueOverflow` on a full queue (46_host_commands.md R168). -/
def execPushf (frag : Frag) (s : State) : Result :=
  unlessFaulted s fun s =>
    if s.fq.length < Config.queueDepth then .next (setFq (s.fq ++ [frag]) s)
    else .next (raiseFault .queueOverflow s)

/-- CLRF: `FQ <- []` (46_host_commands.md R169). -/
def execClrf (s : State) : Result := unlessFaulted s fun s => .next (setFq [] s)

end Sys2Proof.Machine
end

