-- ==== Sys2Proof/Machine/TextCodec.lean ====
section
/-! DEFINITION. The text formatter and parser, TFMT and TPRS (44_text_codec.md R130 to R142; the line format is 30_encoding.md R85
as written and R86 as accepted). -/

namespace Sys2Proof.Machine

/-- The character `:`, 0x3A (30_encoding.md R87). -/
def colon : Byte := 0x3A

/-- The character `;`, 0x3B (30_encoding.md R87). -/
def semicolon : Byte := 0x3B

/-- The character of a decimal digit, `'0'` = 0x30 to `'9'` = 0x39 (30_encoding.md R87). -/
def digitChar (d : Nat) : Byte := BitVec.ofNat 8 (0x30 + d)

/-- The decimal digits of `n` put before `tail`; `fuel` is a bound on their number. -/
def decOnto : Nat → Nat → List Byte → List Byte
  | 0, _, tail => tail
  | fuel + 1, n, tail =>
    if n < 10 then digitChar n :: tail else decOnto fuel (n / 10) (digitChar (n % 10) :: tail)

/-- `dec(n)`: `n` in base ten, most significant digit first, with no leading zero (00_scope.md R10). -/
def dec (n : Nat) : List Byte := decOnto (n + 1) n []

/-- A token as TFMT writes it: `index:count` (30_encoding.md R85). -/
def formatToken (index count : Nat) : List Byte := dec index ++ [colon] ++ dec count

/-- The indexes and values of the non-zero slots, ascending; `i` is the index of the first slot (44_text_codec.md R131). -/
def nonZeroSlots : Nat → List Byte → List (Nat × Nat)
  | _, [] => []
  | i, x :: xs => if 0 < x.toNat then (i, x.toNat) :: nonZeroSlots (i + 1) xs else nonZeroSlots (i + 1) xs

/-- `formatLine(v)`: a token for every non-zero slot, `;` between tokens, then the terminator (44_text_codec.md R131). -/
def formatLine (v : ExpVec) : List Byte :=
  [semicolon].intercalate ((nonZeroSlots 0 v.toList).map fun t => formatToken t.1 t.2) ++ [Config.lineTerm]

/-- TFMT: `OutPut(formatLine(EV))` (44_text_codec.md R130). -/
def execTfmt (s : State) : Result :=
  unlessFaulted s fun s => .next (outPut (formatLine s.ev) s)

/-- A token of a parsed line: a slot and its count, a natural number with no upper limit (44_text_codec.md R138, R141). -/
structure Token where
  index : Fin Config.numSlots
  count : Nat
deriving DecidableEq, Repr

/-- The value of a digit character, if the byte is one (30_encoding.md R86, R87). -/
def digitValue (c : Byte) : Option Nat :=
  if 0x30 ≤ c.toNat ∧ c.toNat ≤ 0x39 then some (c.toNat - 0x30) else none

/-- The value of a digit string read on from `acc`, if every byte is a digit. -/
def numberFrom : Nat → List Byte → Option Nat
  | acc, [] => some acc
  | acc, c :: cs =>
    match digitValue c with
    | some d => numberFrom (10 * acc + d) cs
    | none => none

/-- A number: one or more digits, leading zeros allowed, no digit limit (30_encoding.md R86, 44_text_codec.md R138). -/
def parseNumber : List Byte → Option Nat
  | [] => none
  | c :: cs => numberFrom 0 (c :: cs)

/-- The parts of a byte sequence between the occurrences of a separator; always at least one part. -/
def splitAtByte (sep : Byte) : List Byte → List (List Byte)
  | [] => [[]]
  | c :: cs =>
    if c = sep then [] :: splitAtByte sep cs
    else
      match splitAtByte sep cs with
      | [] => [[c]]
      | part :: parts => (c :: part) :: parts

/-- A token: a number, one `:`, a number; the index at most 54, the count at least 1 (30_encoding.md R86, 44_text_codec.md R138). -/
def parseToken (bytes : List Byte) : Option Token :=
  match splitAtByte colon bytes with
  | [indexBytes, countBytes] =>
    match parseNumber indexBytes, parseNumber countBytes with
    | some index, some count =>
      match slotOf index with
      | some i => if 0 < count then some ⟨i, count⟩ else none
      | none => none
    | _, _ => none
  | _ => none

/-- `parseLine(line)`: the tokens in line order, none for the empty line; `Corruption` when the line is not of the grammar
(44_text_codec.md R138). -/
def parseLine (line : List Byte) : Except Cause (List Token) :=
  match line with
  | [] => .ok []
  | _ :: _ =>
    match (splitAtByte semicolon line).mapM parseToken with
    | some tokens => .ok tokens
    | none => .error .corruption

/-- `n` checked multiplications by the same prime (44_text_codec.md R139). -/
def mulTimes (p : Byte) : Nat → Acc → Except Cause Acc
  | 0, acc => .ok acc
  | n + 1, acc =>
    match mulChecked acc p with
    | .ok acc' => mulTimes p n acc'
    | .error c => .error c

/-- One token: the unity slot contributes nothing, a prime slot multiplies `count` times (44_text_codec.md R139, R140). Eight
multiplications always suffice, "whatever the count": the comparison is the one over the naturals (44_text_codec.md R139, R141).
DEDUCED (log 8), safe. -/
def evalToken (acc : Acc) (t : Token) : Except Cause Acc :=
  match slotPrime t.index.val with
  | none => .ok acc
  | some p => mulTimes p (min t.count 8) acc

/-- `evalLine(tokens)`: 0 for the empty line, otherwise the product (44_text_codec.md R139). -/
def evalLine (tokens : List Token) : Except Cause Byte :=
  match tokens with
  | [] => .ok 0
  | _ :: _ =>
    match tokens.foldlM evalToken 1 with
    | .ok acc => .ok (acc.setWidth 8)
    | .error c => .error c

/-- Whether a byte is the line terminator (30_encoding.md R88). -/
def isLineTerm (c : Byte) : Bool := c == Config.lineTerm

/-- `takeLine()`: a complete line is taken whatever `IST` is; otherwise the outcome is `IST`'s (44_text_codec.md R137). -/
def takeLine (ibuf : List Byte) (ist : InputStatus) : Take :=
  match ibuf.findIdx? isLineTerm, ist, ibuf with
  | some t, _, _ => .found t
  | none, .opened, _ => .holds
  | none, .err, _ => .fails .readFailure
  | none, .eos, [] => .endOfInput
  | none, .eos, _ :: _ => .fails .readFailure

/-- The byte of a line, or the fault: the grammar of the whole line first, its value only then (44_text_codec.md R142). -/
def lineByte (line : List Byte) : Except Cause Byte :=
  match parseLine line with
  | .ok tokens => evalLine tokens
  | .error c => .error c

/-- What TPRS does with the line of length `t` at the front of `IBUF` (44_text_codec.md R136). -/
def consumeLine (t : Nat) (s : State) : Result :=
  match lineByte (s.ibuf.take t) with
  | .ok v => .next (setEos false (inTake (t + 1) (setB v s)))
  | .error c => .next (raiseFault c s)

/-- TPRS: read one text line from `IBUF` into `B` (44_text_codec.md R136). -/
def execTprs (s : State) : Result :=
  unlessFaulted s fun s => parseUnit .tprs (takeLine s.ibuf s.ist) consumeLine s

end Sys2Proof.Machine
end

