-- ==== Sys2Proof/Machine/Dispatch.lean ====
section
/-! DEFINITION. One arm per command, each a direct call of its meaning (30_encoding.md R72). -/

namespace Sys2Proof.Machine

def exec (i : Instr) (s : State) : Host.Outcome State Fault Refusal :=
  match i with
  | .nop => Sys2Proof.Machine.execNop s
  | .ldb imm8 => Sys2Proof.Machine.execLdb imm8 s
  | .ldev idx val => Sys2Proof.Machine.execLdev idx val s
  | .pushf frag => Sys2Proof.Machine.execPushf frag s
  | .clrf => Sys2Proof.Machine.execClrf s
  | .fact => Sys2Proof.Machine.execFact s
  | .fenc => Sys2Proof.Machine.execFenc s
  | .fdec => Sys2Proof.Machine.execFdec s
  | .tfmt => Sys2Proof.Machine.execTfmt s
  | .tprs => Sys2Proof.Machine.execTprs s
  | .bfmt => Sys2Proof.Machine.execBfmt s
  | .bprs => Sys2Proof.Machine.execBprs s

end Sys2Proof.Machine
end

