-- ==== Sys2Proof/Machine/Issue.lean ====
section
/-! DEFINITION. What one entry of the total order of commands and host moves does (20_memory.md R60): a command word presented on
the port, a move of the host between commands (10_state.md R36), a move of the host during a hold (10_state.md R38). -/

namespace Sys2Proof.Machine

/-- A command word that is no command raises `IllegalCommand` (30_encoding.md R74, R75). -/
def execIllegal (s : State) : Result := unlessFaulted s fun s => .next (raiseFault .illegalCommand s)

/-- A command word on the port: checks in the order of 60_exceptions.md R188, since every meaning begins with the faulted block. -/
def issueWord (w : CmdWord) (s : State) : Result :=
  match decode w with
  | .ok i => exec i s
  | .error _ => execIllegal s

/-- A step as 00_scope.md R14 has it, "a function of the state and the command word alone": the block and the word are its two
arguments and there is no list. In the state answered `STATUS.ERR` tells a fault and `held` a hold. -/
def blockStep (w : CmdWord) (k : Block) : Result := issueWord w (withHost [] k)

/-- The command that holds. -/
def parseInstr : ParseCommand → Instr
  | .tprs => .tprs
  | .bprs => .bprs

/-- The host appends a byte, only while `IST = OPEN` (10_state.md R36). -/
def hostAppend (b : Byte) (s : State) : Result :=
  match s.ist with
  | .opened => .next (appendInput b s)
  | .eos => .refused .inputNotOpen
  | .err => .refused .inputNotOpen

/-- The host closes the input, only from `OPEN` (10_state.md R36). -/
def hostClose (ist : InputStatus) (s : State) : Result :=
  match s.ist with
  | .opened => .next (closeInput ist s)
  | .eos => .refused .inputNotOpen
  | .err => .refused .inputNotOpen

/-- The host reads a register: no state changes; the value on the port `rd_data` is `readRegister`'s, and a number that has none is
refused (10_state.md R34, R35). -/
def hostRead (r : RegNum) (s : State) : Result :=
  match readRegister r s with
  | some _ => .next s
  | none => .refused .noSuchRegister

/-- A move of the host while no command holds (10_state.md R36). -/
def hostMove (m : HostMove) (s : State) : Result :=
  match m with
  | .command w => issueWord w s
  | .append b => hostAppend b s
  | .endInput => hostClose .eos s
  | .failInput => hostClose .err s
  | .drain n => .next (drainOutput n s)
  | .readReg r => hostRead r s
  | .assertReset => .next (resetBlock s)

/-- After the host's action the outcome table is looked up again: the command makes its next attempt (60_exceptions.md R190). -/
def retry (c : ParseCommand) (acted : Result) : Result :=
  match acted with
  | .next s => exec (parseInstr c) (releaseHold s)
  | .fault r => .fault r
  | .refused r => .refused r

/-- A move of the host while `c` holds: append or close, "and nothing else" (10_state.md R38). -/
def moveWhileHeld (c : ParseCommand) (m : HostMove) (s : State) : Result :=
  match m with
  | .append b => retry c (hostAppend b s)
  | .endInput => retry c (hostClose .eos s)
  | .failInput => retry c (hostClose .err s)
  | .command _ => .refused .moveDuringHold
  | .drain _ => .refused .moveDuringHold
  | .readReg _ => .refused .moveDuringHold
  | .assertReset => .refused .moveDuringHold

/-- The next entry of the total order (20_memory.md R60). With none left the run is over, or, if a command holds, hangs
(00_scope.md R15, 60_exceptions.md R190). -/
def nextMove (s : State) : Result :=
  match s.held, s.script with
  | none, [] => .refused .noCommandPresented
  | some _, [] => .fault .holdNeverLifted
  | none, m :: moves => hostMove m (setScript moves s)
  | some c, m :: moves => moveWhileHeld c m (setScript moves s)

/-- A run's first state: the command list is an argument and the block is the one after reset (00_scope.md R15, 10_state.md R42). -/
def startRun (moves : List HostMove) : State := withHost moves Block.reset

/-- The state with a command word as the host's very next move, nothing holding before it. -/
def presentWord (w : CmdWord) (s : State) : State := setScript (.command w :: s.script) (releaseHold s)

end Sys2Proof.Machine
end

