-- ==== Sys2Proof/Machine/Step.lean ====
section
/-! DEFINITION. One step of the model: the next entry in the one total order of commands and host moves (00_scope.md R14,
20_memory.md R60). -/

namespace Sys2Proof.Machine

/-- One step. -/
def step (s : State) : Host.Outcome State Fault Refusal := nextMove s

/-- The state in which the very next step runs the command word in the low `nbits` bits of `w`: the host presents it (log 1). -/
def State.withFetchWord (s : State) (nbits w : Nat) : State :=
  presentWord (BitVec.ofNat 72 (w % 2 ^ nbits)) s

end Sys2Proof.Machine
end

