-- ==== Sys2Proof/Machine/Pseudo.lean ====
section
/-! DEFINITION. The four pseudo-commands (30_encoding.md R78): "notation of this spec, not commands of the block: the block sees
only the expansion". -/

namespace Sys2Proof.Machine

/-- A pseudo-command of the assembler notation (30_encoding.md R78). -/
inductive PseudoCommand where
  | encb (imm8 : Byte)
  | enct (imm8 : Byte)
  | decb
  | dect
deriving DecidableEq, Repr

/-- The expansion of a pseudo-command (30_encoding.md R78). -/
def expandPseudo : PseudoCommand → List Instr
  | .encb imm8 => [.ldb imm8, .fact, .fenc, .bfmt]
  | .enct imm8 => [.ldb imm8, .fact, .tfmt]
  | .decb => [.bprs, .fdec]
  | .dect => [.tprs]

/-- The host's moves that present a list of commands, one after the other (00_scope.md R15). -/
def presentAll (is : List Instr) : List HostMove := is.map fun i => .command (encode i)

end Sys2Proof.Machine
end

