-- ==== Sys2Proof/Safety.lean ====
section
/-! DEFINITION. What counts as a safe state and a safe run, and the words claims are stated in: the must-be-zero bits, the products
of primes, and the grammar of a text line, each written from its rule and not from the functions of Machine/. -/

namespace Sys2Proof.Machine

/-- What the outcome table of a parse command says of a state's input (44_text_codec.md R137, 45_binary_codec.md R155). -/
def unitOutcome (c : ParseCommand) (s : State) : Take :=
  match c with
  | .tprs => takeLine s.ibuf s.ist
  | .bprs => takeRecord s.ibuf s.ist

/-- A command is recorded as holding only on a block that is not faulted and whose input makes it hold (60_exceptions.md R190). -/
def HoldIsRight (s : State) : Prop :=
  match s.held with
  | none => True
  | some c => s.err = none ∧ unitOutcome c s = .holds

/-- The invariant of every command boundary that the types do not carry: the queue's bound (10_state.md R41), and that a hold is
one. -/
structure State.Inv (s : State) : Prop where
  queue : s.fq.length ≤ Config.queueDepth
  hold : HoldIsRight s

/-- A run that ended in success: the list is exhausted, nothing holds, and `STATUS.ERR = 0` (00_scope.md R15). -/
def RunSucceeded (s : State) : Prop := s.script = [] ∧ s.held = none ∧ s.err = none

/-- A run that failed: a command raised (00_scope.md R15). -/
def RunFailed (s : State) : Prop := s.err ≠ none

/-- A run that hangs: a command holds and the host does nothing more (60_exceptions.md R190). -/
def RunHangs (s : State) : Prop := s.script = [] ∧ s.held ≠ none ∧ s.err = none

/-- The must-be-zero bits of a word, by the format of its opcode (30_encoding.md R71, R72). -/
def mbzBits (w : CmdWord) : Nat :=
  if opcodeField w = 0x01 then w.toNat / 2 ^ 16
  else if opcodeField w = 0x02 then w.toNat / 2 ^ 24
  else if opcodeField w = 0x03 then 0
  else w.toNat / 2 ^ 8

/-- A command's encoding: its opcode with must-be-zero bits zero is that command, with the operands the word's fields give; with
a must-be-zero bit set it raises `IllegalCommand` (30_encoding.md R71, R75). -/
def EncodedAs (opcode : Byte) (command : CmdWord → Instr) : Prop :=
  ∀ w, opcodeField w = opcode →
    (mbzBits w = 0 → decode w = .ok (command w)) ∧
    (mbzBits w ≠ 0 → ∀ s, s.err = none → issueWord w s = .next { s with err := some .illegalCommand })

/-- The value of slot `i` of a vector as a number (0 for an `i` that is no slot). -/
def slotValue (v : ExpVec) (i : Nat) : Nat := (v.toList.getD i 0).toNat

/-- The prime of slot `i` as a number; 1 for the unity slot, which "never multiplies" (43_fragment_decoder.md R124). -/
def slotFactor (i : Nat) : Nat := match slotPrime i with
  | none => 1
  | some p => p.toNat

/-- The product over `s` from 1 to 54 of `PT[s-1] ^ c s` (41_factorizer.md R106, 43_fragment_decoder.md R123). -/
def primeProduct (c : Nat → Nat) : Nat :=
  ((List.range Config.numPrimes).map fun n => slotFactor (n + 1) ^ c (n + 1)).prod

/-- `c[i]`: the number of fragments that have bit `i` set (43_fragment_decoder.md R123). -/
def bitCount (q : List Frag) (i : Nat) : Nat := q.countP fun f => f.getLsbD i

/-- The product of a line's tokens over the naturals: each prime slot's prime to the count (44_text_codec.md R139). -/
def tokenProduct (tokens : List Token) : Nat :=
  (tokens.map fun t => slotFactor t.index.val ^ t.count).prod

/-- A digit character (30_encoding.md R86, R87). -/
def IsDigit (c : Byte) : Prop := 0x30 ≤ c.toNat ∧ c.toNat ≤ 0x39

/-- The base-ten value of a digit string, most significant digit first (20_memory.md R53, 44_text_codec.md R138). -/
def decimalValue (ds : List Byte) : Nat := ds.foldl (fun n c => 10 * n + (c.toNat - 0x30)) 0

/-- `number ::= digit { digit }` with its value (30_encoding.md R86). -/
def IsNumber (ds : List Byte) (n : Nat) : Prop := ds ≠ [] ∧ (∀ c ∈ ds, IsDigit c) ∧ decimalValue ds = n

/-- `token ::= number ':' number`, the index at most 54 and the count at least 1 (30_encoding.md R86). -/
def IsToken (bytes : List Byte) (t : Token) : Prop :=
  ∃ indexBytes countBytes, bytes = indexBytes ++ 0x3A :: countBytes ∧
    IsNumber indexBytes t.index.val ∧ IsNumber countBytes t.count ∧ 1 ≤ t.count

/-- `line ::= empty | token { ';' token }` (30_encoding.md R86). -/
def IsLine (line : List Byte) (tokens : List Token) : Prop :=
  (line = [] ∧ tokens = []) ∨
  (tokens ≠ [] ∧ ∃ parts, line = [(0x3B : Byte)].intercalate parts ∧ List.Forall₂ IsToken parts tokens)

end Sys2Proof.Machine
end

