-- ==== Sys2Proof/Certificates/Slice0/Obligations.lean ====
section
/-! DEFINITION. The statements for the provers. Each docstring names the rule it formalises; a live block is one with
`s.err = none`. Statements that give a whole next state (`.next { s with … }`) are results, completions and frames at once. -/

open Sys2Proof Sys2Proof.Machine

/-! ### Encoding -/

/-- 30_encoding.md R70 to R73: the word of a command decodes to it, with every operand at every value of its field. -/
def Obligations.EncodeThenDecode : Prop :=
  ∀ i : Instr, decode (encode i) = .ok i

/-- 30_encoding.md R76: no two words are the same command. -/
def Obligations.DecodeThenEncode : Prop :=
  ∀ (w : CmdWord) (i : Instr), decode w = .ok i → encode i = w

/-- 30_encoding.md R75: must-be-zero bits, and the rows of the opcode table. -/
def Obligations.WordSelectsAtMostOneRow : Prop :=
  (∀ (w : CmdWord) (s : State), (opcodeField w).toNat ≤ 0x0B → mbzBits w ≠ 0 → s.err = none →
    issueWord w s = .next { s with err := some .illegalCommand }) ∧
  (∀ (w : CmdWord), ∀ r ∈ opcodeTable, ∀ r' ∈ opcodeTable, r.selects w = true → r'.selects w = true → r = r') ∧
  (∀ (w : CmdWord), ∀ r ∈ opcodeTable, r.selects w = true → ∃ i, decode w = .ok i ∧ i.mnemonic = r.mnemonic) ∧
  (∀ (w : CmdWord) (s : State), (∀ r ∈ opcodeTable, r.selects w = false) → s.err = none →
    issueWord w s = .next { s with err := some .illegalCommand })

/-- 30_encoding.md R74: a reserved opcode raises whatever its argument field holds, and the only word that changes nothing on
every live block is NOP's. -/
def Obligations.ReservedOpcodesRaise : Prop :=
  (∀ (w : CmdWord) (s : State), 0x0C ≤ (opcodeField w).toNat → s.err = none →
    issueWord w s = .next { s with err := some .illegalCommand }) ∧
  (∀ w : CmdWord, (∀ s : State, s.err = none → issueWord w s = .next s) ↔ w = 0)

/-- 30_encoding.md R76: decoding is total, and its checks come in the order opcode, must-be-zero bits, LDEV's operand range. -/
def Obligations.DecodingIsTotalAndOrdered : Prop :=
  (∀ w : CmdWord, decode w = .error .reservedOpcode ↔ 0x0C ≤ (opcodeField w).toNat) ∧
  (∀ w : CmdWord, decode w = .error .nonZeroMbz ↔ (opcodeField w).toNat ≤ 0x0B ∧ mbzBits w ≠ 0) ∧
  (∀ w : CmdWord, (∃ i, decode w = .ok i) ↔ (opcodeField w).toNat ≤ 0x0B ∧ mbzBits w = 0) ∧
  (∀ (w : CmdWord) (idx val : Byte) (s : State), decode w = .ok (.ldev idx val) → 54 < idx.toNat → s.err = none →
    issueWord w s = .next { s with err := some .illegalOperand })

/-- 30_encoding.md R79: the worked encodings. -/
def Obligations.WorkedEncodings : Prop :=
  decode 0x000000000000000000 = .ok .nop ∧
  decode 0x000000000000000C01 = .ok (.ldb 12) ∧
  decode 0x00000000000000FA01 = .ok (.ldb 250) ∧
  decode 0x000000000000020102 = .ok (.ldev 1 2) ∧
  decode 0x000000000000C80102 = .ok (.ldev 1 200) ∧
  (decode 0x000000000000013702 = .ok (.ldev 55 1) ∧
    ∀ s : State, s.err = none → issueWord 0x000000000000013702 s = .next { s with err := some .illegalOperand }) ∧
  decode 0x000000000000000603 = .ok (.pushf 0x6) ∧
  decode 0x004000000000000003 = .ok (.pushf 0x0040000000000000) ∧
  decode 0x000000000000000004 = .ok .clrf ∧
  decode 0x000000000000000005 = .ok .fact ∧
  decode 0x000000000000000006 = .ok .fenc ∧
  decode 0x000000000000000007 = .ok .fdec ∧
  decode 0x000000000000000008 = .ok .tfmt ∧
  decode 0x000000000000000009 = .ok .tprs ∧
  decode 0x00000000000000000A = .ok .bfmt ∧
  decode 0x00000000000000000B = .ok .bprs ∧
  (∀ s : State, s.err = none → issueWord 0x00000000000000000C s = .next { s with err := some .illegalCommand }) ∧
  (∀ s : State, s.err = none → issueWord 0x000000000000000105 s = .next { s with err := some .illegalCommand })

/-! ### Host access commands -/

/-- 46_host_commands.md R165.
On a faulted block a command is a step that changes nothing: log 5. -/
def Obligations.NopChangesNothing : Prop :=
  EncodedAs 0x00 (fun _ => .nop) ∧ decode 0 = .ok .nop ∧ ∀ s : State, exec .nop s = .next s

/-- 46_host_commands.md R166. -/
def Obligations.LdbWritesB : Prop :=
  EncodedAs 0x01 (fun w => .ldb (w.extractLsb' 8 8)) ∧
  (∀ (imm8 : Byte) (s : State), s.err = none → exec (.ldb imm8) s = .next { s with b := imm8 }) ∧
  ∀ s : State, s.err = none → issueWord 0x000000000000000C01 s = .next { s with b := 12 }

/-- 46_host_commands.md R167. -/
def Obligations.LdevWritesOneSlot : Prop :=
  EncodedAs 0x02 (fun w => .ldev (w.extractLsb' 8 8) (w.extractLsb' 16 8)) ∧
  (∀ (idx val : Byte) (s : State), s.err = none → 54 < idx.toNat →
    exec (.ldev idx val) s = .next { s with err := some .illegalOperand }) ∧
  (∀ (idx val : Byte) (s : State), s.err = none → idx.toNat ≤ 54 → ∃ ev : ExpVec,
    exec (.ldev idx val) s = .next { s with ev := ev } ∧ slotValue ev idx.toNat = val.toNat ∧
    ∀ i, i ≠ idx.toNat → slotValue ev i = slotValue s.ev i) ∧
  (∀ s : State, s.err = none → ∃ ev : ExpVec,
    issueWord 0x000000000000020102 s = .next { s with ev := ev } ∧ slotValue ev 1 = 2) ∧
  ∀ s : State, s.err = none → issueWord 0x000000000000013702 s = .next { s with err := some .illegalOperand }

/-- 46_host_commands.md R168. -/
def Obligations.PushfAppends : Prop :=
  EncodedAs 0x03 (fun w => .pushf (w.extractLsb' 8 64)) ∧
  (∀ w : CmdWord, opcodeField w = 0x03 → mbzBits w = 0) ∧
  (∀ (frag : Frag) (s : State), s.err = none → s.fq.length = 255 →
    exec (.pushf frag) s = .next { s with err := some .queueOverflow }) ∧
  (∀ (frag : Frag) (s : State), s.err = none → s.fq.length < 255 →
    exec (.pushf frag) s = .next { s with fq := s.fq ++ [frag] }) ∧
  ∀ s : State, s.err = none → s.fq = [] → ∃ t : State,
    issueWord 0x000000000000000603 s = .next t ∧ issueWord 0x000000000000000203 t = .next { s with fq := [0x6, 0x2] } ∧
    fcnt { s with fq := [0x6, 0x2] } = 2

/-- 46_host_commands.md R169. -/
def Obligations.ClrfEmptiesTheQueue : Prop :=
  EncodedAs 0x04 (fun _ => .clrf) ∧
  (∀ s : State, s.err = none → exec .clrf s = .next { s with fq := [] }) ∧
  (∀ s : State, s.fq = [] → fcnt s = 0) ∧
  (∀ s : State, s.err = none → s.fq = [] → exec .fdec s = .next { s with b := 0 }) ∧
  ∀ s : State, s.err = none → s.fq = [] → exec .bfmt s = .next { s with obuf := s.obuf ++ [0x00] }

/-! ### Prime table and factorizer -/

/-- 41_factorizer.md R100: for every bound the sieve is the ordered sequence of the primes below it, and `PT` is the sieve's output
for the bound 255. -/
def Obligations.PrimeTableIsTheSieve : Prop :=
  (∀ bound p, p ∈ sieve bound ↔ p.Prime ∧ p < bound) ∧
  (∀ bound, (sieve bound).Pairwise (· < ·)) ∧
  primeTable.map (·.toNat) = sieve 255 ∧ primeTable.length = 54

/-- 41_factorizer.md R103: FACT completes on every live block, writing `EV` alone. -/
def Obligations.FactWritesTheVector : Prop :=
  EncodedAs 0x05 (fun _ => .fact) ∧
  (∀ s : State, s.err = none → ∃ ev : ExpVec, factorize s.b = .ok ev ∧ exec .fact s = .next { s with ev := ev }) ∧
  ∀ s : State, s.err = none → s.b = 12 → ∃ ev : ExpVec, exec .fact s = .next { s with ev := ev } ∧
    slotValue ev 1 = 2 ∧ slotValue ev 2 = 1 ∧ ∀ i, i ≠ 1 → i ≠ 2 → slotValue ev i = 0

/-- 41_factorizer.md R106: the vector is the factorization of the byte, and no two bytes share a vector. -/
def Obligations.VectorIsTheFactorization : Prop :=
  (∀ (b : Byte) (ev : ExpVec), factorize b = .ok ev → 2 ≤ b.toNat →
    primeProduct (slotValue ev) = b.toNat ∧ slotValue ev 0 = 0) ∧
  (∀ ev : ExpVec, factorize 0 = .ok ev → ∀ i, slotValue ev i = 0) ∧
  (∀ ev : ExpVec, factorize 1 = .ok ev → slotValue ev 0 = 1 ∧ ∀ i, i ≠ 0 → slotValue ev i = 0) ∧
  ∀ (b b' : Byte) (ev : ExpVec), factorize b = .ok ev → factorize b' = .ok ev → b = b'

/-- 41_factorizer.md R105. -/
def Obligations.VectorRanges : Prop :=
  (∀ (b : Byte) (ev : ExpVec), factorize b = .ok ev → ∀ i, slotValue ev i ≤ 7) ∧
  (∀ (b : Byte) (ev : ExpVec), factorize b = .ok ev → ((∃ i, slotValue ev i = 7) ↔ b = 128)) ∧
  (∀ (b : Byte) (ev : ExpVec), factorize b = .ok ev → (ev.toList.filter (· ≠ 0)).length ≤ 4) ∧
  (∀ ev : ExpVec, factorize 210 = .ok ev → (ev.toList.filter (· ≠ 0)).length = 4) ∧
  (∀ (b : Byte) (ev : ExpVec), factorize b = .ok ev → (slotValue ev 0 = 1 ↔ b = 1)) ∧
  ∀ (b : Byte) (ev : ExpVec), factorize b = .ok ev → ((∀ i, slotValue ev i = 0) ↔ b = 0)

/-- 41_factorizer.md R107, 60_exceptions.md R183: the remaining value ends at 1, so no command ever raises `FactorResidue`. -/
def Obligations.FactorResidueIsUnreachable : Prop :=
  (∀ b : Byte, 2 ≤ b.toNat → (sweep primeTable b.toNat).2 = 1) ∧
  (∀ b : Byte, ∃ ev : ExpVec, factorize b = .ok ev) ∧
  ∀ (i : Instr) (s t : State), s.err = none → exec i s = .next t → t.err ≠ some .factorResidue

/-! ### Fragment encoder -/

/-- 42_fragment_encoder.md R110: FENC completes on every live block; the queue is replaced whole and `EV` is left all zero. -/
def Obligations.FencQueuesTheFragments : Prop :=
  EncodedAs 0x06 (fun _ => .fenc) ∧
  (∀ s : State, s.err = none → exec .fenc s = .next { s with fq := toFragments s.ev, ev := Vector.replicate 55 0 }) ∧
  (∀ v : ExpVec, (toFragments v).length ≤ 255) ∧
  ∀ s : State, s.err = none → (∀ i, slotValue s.ev i = if i = 1 then 2 else if i = 2 then 1 else 0) →
    exec .fenc s = .next { s with fq := [0x6, 0x2], ev := Vector.replicate 55 0 }

/-- 42_fragment_encoder.md R113: as many fragments as the largest slot, and at least one. -/
def Obligations.FragmentCountIsTheLargestSlot : Prop :=
  ∀ v : ExpVec, (toFragments v).length = max 1 ((v.toList.map (·.toNat)).foldr max 0) ∧
    1 ≤ (toFragments v).length ∧ (toFragments v).length ≤ 255

/-- 42_fragment_encoder.md R115: bit `i` of fragment `j` says `j < v[i]`, and what follows from it. -/
def Obligations.FragmentBitsCountTheSlots : Prop :=
  (∀ (v : ExpVec) (j i : Nat) (f : Frag), (toFragments v)[j]? = some f → i ≤ 54 →
    (f.getLsbD i = true ↔ j < slotValue v i)) ∧
  (∀ (v : ExpVec) (j : Nat) (f g : Frag), (toFragments v)[j]? = some f → (toFragments v)[j + 1]? = some g →
    ∀ i, g.getLsbD i = true → f.getLsbD i = true) ∧
  (∀ (v : ExpVec) (f : Frag), (toFragments v)[0]? = some f → ∀ i, i ≤ 54 → (f.getLsbD i = true ↔ 0 < slotValue v i)) ∧
  (∀ (v : ExpVec) (f : Frag), (toFragments v).getLast? = some f → (f = 0 ↔ v = Vector.replicate 55 0)) ∧
  ∀ (v : ExpVec) (i : Nat), i ≤ 54 → bitCount (toFragments v) i = slotValue v i

/-- 42_fragment_encoder.md R114. -/
def Obligations.FactorizedBytesTakeOneToSevenFragments : Prop :=
  (∀ (b : Byte) (ev : ExpVec), factorize b = .ok ev →
    1 ≤ (toFragments ev).length ∧ (toFragments ev).length ≤ 7 ∧
    ((toFragments ev).length = 7 ↔ b = 128) ∧
    (b = 0 ∨ b = 1 ∨ Squarefree b.toNat → (toFragments ev).length = 1)) ∧
  ∀ ev : ExpVec, factorize 128 = .ok ev → toFragments ev = List.replicate 7 0x2

/-! ### Fragment decoder -/

/-- 43_fragment_decoder.md R120 with its closed form R123: FDEC writes the product of the primes of all set prime bits, 0 when no
bit at positions 0 to 54 is set, and raises `AccRange` exactly when the product exceeds 255. -/
def Obligations.FdecWritesTheProduct : Prop :=
  EncodedAs 0x07 (fun _ => .fdec) ∧
  (∀ s : State, s.err = none → 255 < primeProduct (bitCount s.fq) →
    exec .fdec s = .next { s with err := some .accRange }) ∧
  (∀ s : State, s.err = none → primeProduct (bitCount s.fq) ≤ 255 → (∃ i, i ≤ 54 ∧ bitCount s.fq i ≠ 0) →
    exec .fdec s = .next { s with b := BitVec.ofNat 8 (primeProduct (bitCount s.fq)) }) ∧
  (∀ s : State, s.err = none → (∀ i, i ≤ 54 → bitCount s.fq i = 0) → exec .fdec s = .next { s with b := 0 }) ∧
  ∀ s : State, s.err = none → s.fq = [0x6, 0x2] → exec .fdec s = .next { s with b := 12 }

/-- 43_fragment_decoder.md R123: the closed form of `toByte`, which does not depend on the order of the fragments. -/
def Obligations.DecodingIsTheProductInAnyOrder : Prop :=
  (∀ q : List Frag, 255 < primeProduct (bitCount q) → toByte q = .error .accRange) ∧
  (∀ q : List Frag, primeProduct (bitCount q) ≤ 255 → (∃ i, i ≤ 54 ∧ bitCount q i ≠ 0) →
    toByte q = .ok (BitVec.ofNat 8 (primeProduct (bitCount q)))) ∧
  (∀ q : List Frag, (∀ i, i ≤ 54 → bitCount q i = 0) → toByte q = .ok 0) ∧
  (∀ q q' : List Frag, q.Perm q' → toByte q = toByte q') ∧
  ∀ (d : DecodeState) (is js : List Nat), 1 ≤ d.acc.toNat → d.acc.toNat ≤ 255 → is.Perm js →
    is.foldlM visitSlot d = js.foldlM visitSlot d

/-- 43_fragment_decoder.md R122: the 16-bit product is the product over the naturals, checked against 255. -/
def Obligations.CheckedProductNeverWraps : Prop :=
  ∀ (acc : Acc) (p : Byte), 1 ≤ acc.toNat → acc.toNat ≤ 255 → p ∈ primeTable →
    acc.toNat * p.toNat ≤ 64005 ∧
    (255 < acc.toNat * p.toNat → mulChecked acc p = .error .accRange) ∧
    (acc.toNat * p.toNat ≤ 255 → ∃ acc' : Acc, mulChecked acc p = .ok acc' ∧ acc'.toNat = acc.toNat * p.toNat)

/-- 30_encoding.md R82: fragment bits 55 to 63.
The stream clause is in the block's byte order, little (log 4). -/
def Obligations.HighFragmentBitsMeanNothing : Prop :=
  (∀ (v : ExpVec) (f : Frag), f ∈ toFragments v → ∀ i, 55 ≤ i → f.getLsbD i = false) ∧
  (∀ q : List Frag, toByte (q.map (· &&& 0x007FFFFFFFFFFFFF)) = toByte q) ∧
  (∀ (frag : Frag) (s : State), s.err = none → s.fq.length < 255 →
    exec (.pushf frag) s = .next { s with fq := s.fq ++ [frag] }) ∧
  ∀ (s : State) (q : List Frag) (rest : List Byte), s.err = none → q.length ≤ 255 →
    s.ibuf = BitVec.ofNat 8 q.length :: q.flatMap le8 ++ rest →
    exec .bprs s = .next { s with fq := q, ibuf := rest, eos := false } ∧
    exec .bfmt { s with fq := q } =
      .next { s with fq := q, obuf := s.obuf ++ BitVec.ofNat 8 q.length :: q.flatMap le8 }

/-! ### Text formatter and parser -/

/-- 44_text_codec.md R130: TFMT completes on every live block, appending to `OBUF` alone. -/
def Obligations.TfmtAppendsTheLine : Prop :=
  EncodedAs 0x08 (fun _ => .tfmt) ∧
  (∀ s : State, s.err = none → exec .tfmt s = .next { s with obuf := s.obuf ++ formatLine s.ev }) ∧
  ∀ s : State, s.err = none → (∀ i, slotValue s.ev i = if i = 1 then 2 else if i = 2 then 1 else 0) →
    exec .tfmt s = .next { s with obuf := s.obuf ++ [0x31, 0x3A, 0x32, 0x3B, 0x32, 0x3A, 0x31, 0x0A] }

/-- 44_text_codec.md R132: the line is of the grammar, with one token for each non-zero slot in strictly ascending order, and its
one terminator is its last byte. -/
def Obligations.FormattedLineLaws : Prop :=
  (∀ v : ExpVec, ∃ (line : List Byte) (tokens : List Token), formatLine v = line ++ [0x0A] ∧ (0x0A : Byte) ∉ line ∧
    IsLine line tokens ∧ (tokens.map fun t => t.index.val).Pairwise (· < ·) ∧
    (∀ t ∈ tokens, 1 ≤ t.count) ∧
    ∀ i c, (∃ t ∈ tokens, t.index.val = i ∧ t.count = c) ↔ (slotValue v i = c ∧ 0 < c)) ∧
  formatLine (Vector.replicate 55 0) = [0x0A]

/-- 44_text_codec.md R134. -/
def Obligations.FormattedLineLength : Prop :=
  (∀ v : ExpVec, 1 ≤ (formatLine v).length ∧ (formatLine v).length ≤ 375) ∧
  (formatLine (Vector.replicate 55 0)).length = 1 ∧ (formatLine (Vector.replicate 55 255)).length = 375 ∧
  (∀ (b : Byte) (ev : ExpVec), factorize b = .ok ev → (formatLine ev).length ≤ 16) ∧
  ∀ ev : ExpVec, factorize 210 = .ok ev → (formatLine ev).length = 16

/-- 30_encoding.md R86: the parser accepts exactly the grammar, and every other line is `Corruption`. -/
def Obligations.ParserAcceptsTheGrammar : Prop :=
  (∀ (line : List Byte) (tokens : List Token), parseLine line = .ok tokens ↔ IsLine line tokens) ∧
  ∀ line : List Byte, (¬ ∃ tokens, IsLine line tokens) → parseLine line = .error .corruption

/-- 44_text_codec.md R139: a line's value is the product over the naturals, in any order of the tokens. -/
def Obligations.LineValueIsTheProduct : Prop :=
  evalLine [] = .ok 0 ∧
  (∀ tokens : List Token, tokens ≠ [] → 255 < tokenProduct tokens → evalLine tokens = .error .accRange) ∧
  (∀ tokens : List Token, tokens ≠ [] → tokenProduct tokens ≤ 255 →
    evalLine tokens = .ok (BitVec.ofNat 8 (tokenProduct tokens))) ∧
  ∀ tokens tokens' : List Token, tokens.Perm tokens' → evalLine tokens = evalLine tokens'

/-- 44_text_codec.md R140: unity tokens contribute nothing, and 0 comes from the empty line only. -/
def Obligations.UnityTokensContributeNothing : Prop :=
  (∀ count : Nat, evalLine [⟨0, count⟩] = .ok 1) ∧
  (∀ (count : Nat) (tokens : List Token), tokens ≠ [] → evalLine (⟨0, count⟩ :: tokens) = evalLine tokens) ∧
  (∀ line : List Byte, lineByte line = .ok 0 ↔ line = []) ∧
  lineByte [0x30, 0x3A, 0x31] = .ok 1 ∧ lineByte [0x30, 0x3A, 0x37] = .ok 1 ∧
  lineByte [0x30, 0x3A, 0x31, 0x3B, 0x31, 0x3A, 0x31] = .ok 2

/-- 44_text_codec.md R136 on a complete line, whatever `IST` is: the byte is the product of the line's tokens, and the line and its
terminator leave `IBUF`; a line outside the grammar is `Corruption`, a product above 255 `AccRange`; and on a clean end of input.
(The holds and the failed inputs are `TprsInputTable`.) -/
def Obligations.TprsReadsOneLine : Prop :=
  EncodedAs 0x09 (fun _ => .tprs) ∧
  (∀ (s : State) (line rest : List Byte), s.err = none → s.ibuf = line ++ 0x0A :: rest → (0x0A : Byte) ∉ line →
    (line = [] → exec .tprs s = .next { s with b := 0, ibuf := rest, eos := false }) ∧
    (∀ tokens, IsLine line tokens → tokens ≠ [] → tokenProduct tokens ≤ 255 →
      exec .tprs s = .next { s with b := BitVec.ofNat 8 (tokenProduct tokens), ibuf := rest, eos := false }) ∧
    (∀ tokens, IsLine line tokens → 255 < tokenProduct tokens →
      exec .tprs s = .next { s with err := some .accRange }) ∧
    ((¬ ∃ tokens, IsLine line tokens) → exec .tprs s = .next { s with err := some .corruption })) ∧
  (∀ s : State, s.err = none → s.ibuf = [] → s.ist = .eos → exec .tprs s = .next { s with eos := true }) ∧
  ∀ s : State, s.err = none → s.ibuf = [0x31, 0x3A, 0x32, 0x3B, 0x32, 0x3A, 0x31, 0x0A] →
    exec .tprs s = .next { s with b := 12, ibuf := [], eos := false }

/-- 44_text_codec.md R137: what TPRS does for each state of `IBUF` and `IST` in which there is no complete line, and that a complete
line is found whatever `IST` is.
The record of a hold is the model's own field (log 2). -/
def Obligations.TprsInputTable : Prop :=
  (∀ (s : State) (line rest : List Byte), s.ibuf = line ++ 0x0A :: rest → (0x0A : Byte) ∉ line →
    takeLine s.ibuf s.ist = .found line.length) ∧
  (∀ s : State, s.err = none → s.ibuf = [] → s.ist = .eos → exec .tprs s = .next { s with eos := true }) ∧
  (∀ s : State, s.err = none → s.ibuf = [] → s.ist = .err → exec .tprs s = .next { s with err := some .readFailure }) ∧
  (∀ s : State, s.err = none → s.ibuf ≠ [] → (0x0A : Byte) ∉ s.ibuf → s.ist = .eos →
    exec .tprs s = .next { s with err := some .readFailure }) ∧
  (∀ s : State, s.err = none → s.ibuf ≠ [] → (0x0A : Byte) ∉ s.ibuf → s.ist = .err →
    exec .tprs s = .next { s with err := some .readFailure }) ∧
  ∀ s : State, s.err = none → (0x0A : Byte) ∉ s.ibuf → s.ist = .opened →
    exec .tprs s = .next { s with held := some .tprs }

/-- 44_text_codec.md R142: the input first, the grammar of the whole line next, its value last. -/
def Obligations.TprsChecksInOrder : Prop :=
  (∀ s : State, s.err = none → (0x0A : Byte) ∉ s.ibuf → s.ibuf ≠ [] → s.ist ≠ .opened →
    exec .tprs s = .next { s with err := some .readFailure }) ∧
  (∀ (s : State) (line rest : List Byte), s.err = none → s.ibuf = line ++ 0x0A :: rest → (0x0A : Byte) ∉ line →
    parseLine line = .error .corruption → exec .tprs s = .next { s with err := some .corruption }) ∧
  (∀ (s : State) (line rest : List Byte) (tokens : List Token), s.err = none → s.ibuf = line ++ 0x0A :: rest →
    (0x0A : Byte) ∉ line → parseLine line = .ok tokens → evalLine tokens = .error .accRange →
    exec .tprs s = .next { s with err := some .accRange }) ∧
  ∀ s : State, s.err = none → s.ibuf = [0x31, 0x3A, 0x39, 0x3B, 0x78, 0x0A] →
    exec .tprs s = .next { s with err := some .corruption }

/-! ### Binary formatter and parser -/

/-- 45_binary_codec.md R150: BFMT completes on every live block, appending the record of `FQ` to `OBUF` alone. The byte order is the
block's, little (log 4). -/
def Obligations.BfmtAppendsTheRecord : Prop :=
  EncodedAs 0x0A (fun _ => .bfmt) ∧
  (∀ s : State, s.err = none →
    exec .bfmt s = .next { s with obuf := s.obuf ++ fcnt s :: s.fq.flatMap le8 }) ∧
  (∀ s : State, s.fq.length ≤ 255 → (fcnt s).toNat = s.fq.length) ∧
  (∀ s : State, (fcnt s :: s.fq.flatMap le8).length = 1 + 8 * s.fq.length) ∧
  ∀ s : State, s.err = none → s.fq = [0x6, 0x2] → exec .bfmt s =
    .next { s with obuf := s.obuf ++ [0x02, 0x06, 0, 0, 0, 0, 0, 0, 0, 0x02, 0, 0, 0, 0, 0, 0, 0] }

/-- 20_memory.md R52, 00_scope.md R10: the bytes of a fragment's field in each order, and that the field gives the fragment back. -/
def Obligations.FragmentFieldBytes : Prop :=
  (∀ (f : Frag) (k i : Nat) (b : Byte), (le8 f)[k]? = some b → i < 8 → b.getLsbD i = f.getLsbD (8 * k + i)) ∧
  (∀ f : Frag, (le8 f).length = 8 ∧ fragmentField .little f = le8 f ∧ fragmentField .big f = (le8 f).reverse) ∧
  (∀ (o : Config.ByteOrder) (f : Frag), fieldFragment o (fragmentField o f) = f) ∧
  ∀ (o : Config.ByteOrder) (bytes : List Byte), bytes.length = 8 → fragmentField o (fieldFragment o bytes) = bytes

/-- 45_binary_codec.md R154 on a complete record, whatever `IST` is: the queue is the record's fragments, each the `unLE8` of its
8 bytes, and the record leaves `IBUF`.
The byte order is the block's, little (log 4). -/
def Obligations.BprsReadsOneRecord : Prop :=
  EncodedAs 0x0B (fun _ => .bprs) ∧
  (∀ (s : State) (n : Byte) (body rest : List Byte), s.err = none → s.ibuf = n :: body ++ rest →
    body.length = 8 * n.toNat → ∃ q : List Frag,
      exec .bprs s = .next { s with fq := q, ibuf := rest, eos := false } ∧ q.length = n.toNat ∧ q.flatMap le8 = body) ∧
  (∀ s : State, s.err = none → s.ibuf = [] → s.ist = .eos → exec .bprs s = .next { s with eos := true }) ∧
  ∀ s : State, s.err = none → s.ibuf = [0x02, 0x06, 0, 0, 0, 0, 0, 0, 0, 0x02, 0, 0, 0, 0, 0, 0, 0] →
    exec .bprs s = .next { s with fq := [0x6, 0x2], ibuf := [], eos := false }

/-- 45_binary_codec.md R155: what BPRS does for each state of `IBUF` and `IST`.
The record of a hold is the model's own field (log 2). -/
def Obligations.BprsInputTable : Prop :=
  (∀ (n : Byte) (rest : List Byte) (ist : InputStatus), 1 + 8 * n.toNat ≤ (n :: rest).length →
    takeRecord (n :: rest) ist = .found n.toNat) ∧
  (∀ s : State, s.err = none → s.ibuf = [] → s.ist = .eos → exec .bprs s = .next { s with eos := true }) ∧
  (∀ s : State, s.err = none → s.ibuf = [] → s.ist = .err → exec .bprs s = .next { s with err := some .readFailure }) ∧
  (∀ (s : State) (n : Byte) (rest : List Byte), s.err = none → s.ibuf = n :: rest → s.ibuf.length < 1 + 8 * n.toNat →
    s.ist = .eos → exec .bprs s = .next { s with err := some .corruption }) ∧
  (∀ (s : State) (n : Byte) (rest : List Byte), s.err = none → s.ibuf = n :: rest → s.ibuf.length < 1 + 8 * n.toNat →
    s.ist = .err → exec .bprs s = .next { s with err := some .readFailure }) ∧
  (∀ s : State, s.err = none → s.ibuf = [] → s.ist = .opened → exec .bprs s = .next { s with held := some .bprs }) ∧
  ∀ (s : State) (n : Byte) (rest : List Byte), s.err = none → s.ibuf = n :: rest → s.ibuf.length < 1 + 8 * n.toNat →
    s.ist = .opened → exec .bprs s = .next { s with held := some .bprs }

/-- 45_binary_codec.md R159, its first half, for both byte orders: reading a written record restores the queue. -/
def Obligations.RecordRestoresTheQueue : Prop :=
  ∀ (o : Config.ByteOrder) (q : List Frag) (rest : List Byte) (ist : InputStatus), q.length ≤ 255 →
    takeRecord (formatRecord o q ++ rest) ist = .found q.length ∧
    readFragments o q.length ((formatRecord o q ++ rest).drop 1) = q ∧
    (formatRecord o q ++ rest).drop (recordLength q.length) = rest

/-! ### Round trips -/

/-- 43_fragment_decoder.md R125: `LDB b; FACT; FENC; FDEC` ends with `B = b` and no fault. -/
def Obligations.BinaryRoundTrip : Prop :=
  ∀ (b : Byte) (s : State), s.err = none → ∃ s1 s2 s3 s4 : State,
    exec (.ldb b) s = .next s1 ∧ exec .fact s1 = .next s2 ∧ exec .fenc s2 = .next s3 ∧ exec .fdec s3 = .next s4 ∧
    s4.b = b ∧ s4.err = none

/-- 45_binary_codec.md R159: BPRS on the bytes a BFMT wrote restores the queue, and after `LDB b; FACT; FENC; BFMT` the commands
`BPRS; FDEC` on the record just written, moved by the host to another block's or this block's `IBUF`, end with `B = b`. -/
def Obligations.BinaryWireRoundTrip : Prop :=
  (∀ s r : State, s.err = none → s.fq.length ≤ 255 → r.err = none → ∃ (s1 : State) (record : List Byte),
    exec .bfmt s = .next s1 ∧ s1.obuf = s.obuf ++ record ∧
    ∀ rest, exec .bprs { r with ibuf := record ++ rest } = .next { r with fq := s.fq, ibuf := rest, eos := false }) ∧
  ∀ (b : Byte) (s r : State), s.err = none → r.err = none → ∃ (s1 s2 s3 s4 : State) (record : List Byte),
    exec (.ldb b) s = .next s1 ∧ exec .fact s1 = .next s2 ∧ exec .fenc s2 = .next s3 ∧ exec .bfmt s3 = .next s4 ∧
    s4.obuf = s.obuf ++ record ∧
    ∀ rest, ∃ r1 r2 : State, exec .bprs { r with ibuf := record ++ rest } = .next r1 ∧ exec .fdec r1 = .next r2 ∧
      r2.b = b ∧ r2.err = none ∧ r2.ibuf = rest

/-- 44_text_codec.md R143: after `LDB b; FACT; TFMT`, a TPRS on the line just written, moved by the host to `IBUF`, ends with
`B = b` and no fault. -/
def Obligations.TextRoundTrip : Prop :=
  ∀ (b : Byte) (s r : State), s.err = none → r.err = none → ∃ (s1 s2 s3 : State) (line : List Byte),
    exec (.ldb b) s = .next s1 ∧ exec .fact s1 = .next s2 ∧ exec .tfmt s2 = .next s3 ∧ s3.obuf = s.obuf ++ line ∧
    ∀ rest, exec .tprs { r with ibuf := line ++ rest } = .next { r with b := b, ibuf := rest, eos := false }

/-! ### Faults and holds -/

/-- 60_exceptions.md R184, R185: a raising command changes `STATUS.ERR` alone; a faulted block refuses every word, legal or not, that
is, changes nothing; faulted means `STATUS.ERR` is not 0 and is no successful end.
That a command on a faulted block is a step with a next state is log 5. -/
def Obligations.FaultEntryIsPreciseAndFinal : Prop :=
  (∀ (i : Instr) (s t : State) (c : Cause), s.err = none → exec i s = .next t → t.err = some c →
    t = { s with err := some c }) ∧
  (∀ (w : CmdWord) (s t : State) (c : Cause), s.err = none → issueWord w s = .next t → t.err = some c →
    t = { s with err := some c }) ∧
  (∀ (w : CmdWord) (s : State), s.err ≠ none → issueWord w s = .next s) ∧
  (∀ (i : Instr) (s : State), s.err ≠ none → exec i s = .next s) ∧
  (∀ s : State, errCode s ≠ 0 ↔ s.err ≠ none) ∧
  (∀ s : State, faultWire s = true ↔ s.err ≠ none) ∧
  ∀ s : State, s.err ≠ none → ¬ RunSucceeded s

/-- 60_exceptions.md R180: the codes, and which command raises which cause, and when. -/
def Obligations.CausesAndTheirCommands : Prop :=
  (∀ s : State, (s.err = some .illegalCommand ↔ errCode s = 1) ∧ (s.err = some .illegalOperand ↔ errCode s = 2) ∧
    (s.err = some .factorResidue ↔ errCode s = 3) ∧ (s.err = some .accRange ↔ errCode s = 4) ∧
    (s.err = some .readFailure ↔ errCode s = 5) ∧ (s.err = some .corruption ↔ errCode s = 6) ∧
    (s.err = some .queueOverflow ↔ errCode s = 7) ∧ (s.err = none ↔ errCode s = 0) ∧ (errCode s).toNat ≤ 7) ∧
  ∀ (i : Instr) (s t : State), s.err = none → exec i s = .next t →
    t.err ≠ some .illegalCommand ∧
    (t.err = some .illegalOperand ↔ ∃ idx val, i = .ldev idx val ∧ 54 < idx.toNat) ∧
    t.err ≠ some .factorResidue ∧
    (t.err = some .accRange → i = .fdec ∨ i = .tprs) ∧
    (t.err = some .readFailure → i = .tprs ∨ i = .bprs) ∧
    (t.err = some .corruption → i = .tprs ∨ i = .bprs) ∧
    (t.err = some .queueOverflow ↔ (∃ frag, i = .pushf frag) ∧ 255 ≤ s.fq.length)

/-- 10_state.md R25: once non-zero, `STATUS.ERR` stays until reset, and it never exceeds 7.
The host's list is the model's (log 1). -/
def Obligations.ErrStaysUntilReset : Prop :=
  (∀ (s t : State) (c : Cause), s.err = some c → step s = .next t →
    t.err = some c ∨ (s.held = none ∧ s.script.head? = some .assertReset ∧ t.err = none)) ∧
  ∀ s : State, (errCode s).toNat ≤ 7

/-- 10_state.md R26: who writes `STATUS.EOS` and that nothing in the block reads it.
The record of a hold is the model's own field (log 2). -/
def Obligations.EosIsWrittenByParseCommandsOnly : Prop :=
  (∀ (i : Instr) (s t : State), exec i s = .next t → i ≠ .tprs → i ≠ .bprs → t.eos = s.eos) ∧
  (∀ (i : Instr) (s t : State), s.err = none → exec i s = .next t → t.err ≠ none → t.eos = s.eos) ∧
  (∀ (c : ParseCommand) (s t : State), s.err = none → s.held = none → exec (parseInstr c) s = .next t →
    t.err = none → t.held = none →
    (s.ibuf = [] ∧ s.ist = .eos ∧ t = { s with eos := true }) ∨ (t.ibuf.length < s.ibuf.length ∧ t.eos = false)) ∧
  (∀ (c : ParseCommand) (s : State), s.err = none → s.ibuf = [] → s.ist = .eos →
    exec (parseInstr c) s = .next { s with eos := true }) ∧
  ∀ (i : Instr) (s t : State) (v : Bool), exec i s = .next t →
    ∃ v', exec i { s with eos := v } = .next { t with eos := v' }

/-- 60_exceptions.md R190: exactly when a command holds; a holding command has made no change. The record of the hold is the
model's own field (log 2). -/
def Obligations.HoldsExactlyOnOpenIncompleteInput : Prop :=
  (∀ (i : Instr) (s t : State) (c : ParseCommand), s.err = none → s.held = none → exec i s = .next t → t.held = some c →
    i = parseInstr c ∧ s.ist = .opened ∧ t = { s with held := some c }) ∧
  (∀ s : State, s.err = none → s.held = none →
    (exec .tprs s = .next { s with held := some .tprs } ↔ s.ist = .opened ∧ (0x0A : Byte) ∉ s.ibuf)) ∧
  ∀ s : State, s.err = none → s.held = none →
    (exec .bprs s = .next { s with held := some .bprs } ↔
      s.ist = .opened ∧ ∀ n rest, s.ibuf = n :: rest → s.ibuf.length < 1 + 8 * n.toNat)

/-- 10_state.md R38, 60_exceptions.md R190: while a command holds the host may append or close, and nothing else; after it the
outcome is looked up again; with no further move the command holds for ever.
The names of the refusal and of the fault, and which moves are refused, are the model's (log 6, log 7). -/
def Obligations.HostLiftsAHold : Prop :=
  ∀ (s : State) (c : ParseCommand) (moves : List HostMove), s.held = some c → s.ist = .opened →
    (∀ b, s.script = .append b :: moves →
      step s = exec (parseInstr c) { s with held := none, script := moves, ibuf := s.ibuf ++ [b] }) ∧
    (s.script = .endInput :: moves →
      step s = exec (parseInstr c) { s with held := none, script := moves, ist := .eos }) ∧
    (s.script = .failInput :: moves →
      step s = exec (parseInstr c) { s with held := none, script := moves, ist := .err }) ∧
    (∀ m, s.script = m :: moves → (∀ b, m ≠ .append b) → m ≠ .endInput → m ≠ .failInput →
      step s = .refused .moveDuringHold) ∧
    (s.script = [] → step s = .fault .holdNeverLifted)

/-! ### Steps, the host, registers, reset -/

/-- 00_scope.md R14: a step runs the command the presented word decodes to, the host's list moving on by one; an undecodable word
raises `IllegalCommand` (30_encoding.md R74, R75); on a faulted block nothing changes but the list (60_exceptions.md R184; that it is
a next state is log 5). The step is a function of the block and the word alone, the host's list being an argument and no state of the
machine (10_state.md R42): what it answers is `blockStep` of the two, with the list's rest beside it. That the list stands in the
type `State` beside the block is the model's (log 1). -/
def Obligations.StepRunsThePresentedCommand : Prop :=
  (∀ (s : State) (w : CmdWord) (moves : List HostMove) (i : Instr), s.held = none → s.script = .command w :: moves →
    decode w = .ok i → step s = exec i { s with script := moves }) ∧
  (∀ (s : State) (w : CmdWord) (moves : List HostMove) (e : DecodeError), s.held = none → s.script = .command w :: moves →
    decode w = .error e → s.err = none → step s = .next { s with script := moves, err := some .illegalCommand }) ∧
  (∀ (s : State) (w : CmdWord) (moves : List HostMove), s.held = none → s.script = .command w :: moves → s.err ≠ none →
    step s = .next { s with script := moves }) ∧
  (∀ (s : State) (w : CmdWord) (moves : List HostMove), s.held = none → s.script = .command w :: moves →
    step s = carryScript moves (blockStep w s.toBlock)) ∧
  ∀ (s : State) (i : Instr), step (s.withFetchWord 72 (encode i).toNat) = exec i { s with held := none }

/-- 10_state.md R36: what the host may do between commands.
The host's list is the model's (log 1), the refusals are log 7. -/
def Obligations.HostMovesBetweenCommands : Prop :=
  ∀ (s : State) (moves : List HostMove), s.held = none →
    (∀ b, s.script = .append b :: moves → s.ist = .opened →
      step s = .next { s with script := moves, ibuf := s.ibuf ++ [b] }) ∧
    (s.script = .endInput :: moves → s.ist = .opened → step s = .next { s with script := moves, ist := .eos }) ∧
    (s.script = .failInput :: moves → s.ist = .opened → step s = .next { s with script := moves, ist := .err }) ∧
    (∀ m, s.script = m :: moves → ((∃ b, m = .append b) ∨ m = .endInput ∨ m = .failInput) → s.ist ≠ .opened →
      step s = .refused .inputNotOpen) ∧
    (∀ n out rest, s.script = .drain n :: moves → s.obuf = out ++ rest → out.length = n →
      step s = .next { s with script := moves, obuf := rest }) ∧
    (∀ r v, s.script = .readReg r :: moves → readRegister r s = some v → step s = .next { s with script := moves }) ∧
    (∀ r, s.script = .readReg r :: moves → readRegister r s = none → step s = .refused .noSuchRegister) ∧
    (s.script = .assertReset :: moves → step s = .next { State.reset with script := moves })

/-- 10_state.md R34, R35: the register-number space of the read port, and that a reserved number and an absent fragment have no
value. -/
def Obligations.ReadPortMap : Prop :=
  ∀ s : State,
    readRegister 0x000 s = some (statusWord s) ∧
    readRegister 0x001 s = some (s.b.setWidth 64) ∧
    readRegister 0x002 s = some ((fcnt s).setWidth 64) ∧
    (∀ i, i ≤ 54 → readRegister (BitVec.ofNat 10 (0x040 + i)) s = some (BitVec.ofNat 64 (slotValue s.ev i))) ∧
    (∀ i, i ≤ 53 → readRegister (BitVec.ofNat 10 (0x080 + i)) s = some (BitVec.ofNat 64 (slotFactor (i + 1)))) ∧
    (∀ j f, j ≤ 254 → s.fq[j]? = some f → readRegister (BitVec.ofNat 10 (0x100 + j)) s = some f) ∧
    (∀ j, j ≤ 254 → s.fq.length ≤ j → readRegister (BitVec.ofNat 10 (0x100 + j)) s = none) ∧
    ∀ r : RegNum, ((0x003 ≤ r.toNat ∧ r.toNat ≤ 0x03F) ∨ (0x077 ≤ r.toNat ∧ r.toNat ≤ 0x07F) ∨
      (0x0B6 ≤ r.toNat ∧ r.toNat ≤ 0x0FF) ∨ 0x1FF ≤ r.toNat) → readRegister r s = none

/-- 10_state.md R24: the layout of `STATUS`. -/
def Obligations.StatusLayout : Prop :=
  ∀ s : State, (statusWord s).extractLsb' 0 4 = errCode s ∧ (statusWord s).getLsbD 4 = s.eos ∧
    (∀ i, 5 ≤ i → (statusWord s).getLsbD i = false) ∧ statusWord State.reset = 0 ∧
    ((∀ c, s.err ≠ some c) ↔ errCode s = 0)

/-- 10_state.md R39: the reset values. -/
def Obligations.ResetValues : Prop :=
  primeTable.map (·.toNat) = [2, 3, 5, 7, 11, 13, 17, 19, 23, 29, 31, 37, 41, 43, 47, 53, 59, 61, 67, 71, 73, 79, 83, 89, 97,
    101, 103, 107, 109, 113, 127, 131, 137, 139, 149, 151, 157, 163, 167, 173, 179, 181, 191, 193,
    197, 199, 211, 223, 227, 229, 233, 239, 241, 251] ∧
  State.reset.b = 0 ∧ (∀ i, slotValue State.reset.ev i = 0) ∧ State.reset.fq = [] ∧ fcnt State.reset = 0 ∧
  errCode State.reset = 0 ∧ State.reset.eos = false ∧ State.reset.ibuf = [] ∧ State.reset.ist = .opened ∧
  State.reset.obuf = []

/-- 70_reset_and_hazards.md R210: asserting `rst` puts every piece of the block's state at its reset value, from every state,
faulted or not, and it is the only way out of the faulted state.
The host's list is the model's (log 1), and a reset during a hold is refused (log 7). -/
def Obligations.ResetRestoresEverything : Prop :=
  (∀ (s : State) (moves : List HostMove), s.held = none → s.script = .assertReset :: moves →
    step s = .next { State.reset with script := moves }) ∧
  ∀ s t : State, s.err ≠ none → step s = .next t → t.err = none →
    s.script.head? = some .assertReset ∧ t = { State.reset with script := s.script.tail }

/-! ### Invariants and frames -/

/-- 10_state.md R41: the reset state meets the invariant: the queue, empty by R39, holds at most 255 fragments, and the record of a
hold is right. That record is the model's own field, and its reset value, none, is the model's choice (log 2), not R39's. -/
def Obligations.ResetMeetsTheInvariant : Prop := State.reset.Inv

/-- 10_state.md R41, 60_exceptions.md R190: every step, of a command or of the host, keeps the invariant: the queue holds at most 255
fragments, and a command is recorded as holding only on a live block whose input is open and incomplete.
The record of a hold is the model's own field (log 2). -/
def Obligations.StepKeepsTheInvariant : Prop :=
  ∀ s t : State, s.Inv → step s = .next t → t.Inv

/-- 20_memory.md R57: bytes appended to `OBUF` are never taken back by the block.
The host's list is the model's (log 1). -/
def Obligations.OutputIsNeverTakenBack : Prop :=
  (∀ (w : CmdWord) (s t : State), issueWord w s = .next t → s.obuf <+: t.obuf) ∧
  (∀ (w : CmdWord) (s t : State), s.err = none → issueWord w s = .next t → t.err ≠ none → t.obuf = s.obuf) ∧
  ∀ s t : State, step s = .next t →
    s.obuf <+: t.obuf ∨ s.script.head? = some .assertReset ∨ ∃ n, s.script.head? = some (.drain n) ∧ t.obuf = s.obuf.drop n

/-- 10_state.md R40, the writes, removals and appends of each command: a command that completes leaves every piece of state its row
does not name. The first clause, that every command answers a next state in every state, is not R40's: for a command that holds
it is the model's choice (log 2; 60_exceptions.md R190 says it "has no step"), and on a faulted block it is 60_exceptions.md R184 as
log 5 reads it. -/
def Obligations.CommandsTouchOnlyTheirState : Prop :=
  (∀ (i : Instr) (s : State), ∃ t : State, exec i s = .next t) ∧
  ∀ (i : Instr) (s t : State), s.err = none → exec i s = .next t → t.err = none →
    (t.b ≠ s.b → (∃ imm8, i = .ldb imm8) ∨ i = .fdec ∨ i = .tprs) ∧
    (t.ev ≠ s.ev → (∃ idx val, i = .ldev idx val) ∨ i = .fact ∨ i = .fenc) ∧
    (t.fq ≠ s.fq → (∃ frag, i = .pushf frag) ∨ i = .clrf ∨ i = .fenc ∨ i = .bprs) ∧
    (t.ibuf ≠ s.ibuf → i = .tprs ∨ i = .bprs) ∧
    (t.obuf ≠ s.obuf → i = .tfmt ∨ i = .bfmt) ∧
    (t.eos ≠ s.eos → i = .tprs ∨ i = .bprs) ∧
    (t.held ≠ s.held → i = .tprs ∨ i = .bprs) ∧
    t.ist = s.ist ∧ t.script = s.script ∧ ∃ n, t.ibuf = s.ibuf.drop n

/-- 00_scope.md R5: no command of the data paths lets an earlier byte's value through: what it leaves in its destination depends on
its source alone. -/
def Obligations.DataPathsKeepNoCrossByteState : Prop :=
  ∀ s s' t t' : State, s.err = none → s'.err = none → t.err = none → t'.err = none →
    (s.b = s'.b → exec .fact s = .next t → exec .fact s' = .next t' → t.ev = t'.ev) ∧
    (s.ev = s'.ev → exec .fenc s = .next t → exec .fenc s' = .next t' → t.fq = t'.fq) ∧
    (s.fq = s'.fq → exec .fdec s = .next t → exec .fdec s' = .next t' → t.b = t'.b) ∧
    (s.ibuf = s'.ibuf → s.ist = s'.ist → (0x0A : Byte) ∈ s.ibuf → exec .tprs s = .next t → exec .tprs s' = .next t' →
      t.b = t'.b ∧ t.ibuf = t'.ibuf) ∧
    (s.ibuf = s'.ibuf → s.ist = s'.ist → (∃ n, takeRecord s.ibuf s.ist = .found n) → exec .bprs s = .next t →
      exec .bprs s' = .next t' → t.fq = t'.fq ∧ t.ibuf = t'.ibuf)

/-- 70_reset_and_hazards.md R216: FENC consumes the vector, so `FACT; FENC; TFMT` writes an empty line, which reads back as byte 0. -/
def Obligations.FencConsumesTheVector : Prop :=
  ∀ s r : State, s.err = none → r.err = none → ∃ s1 s2 : State, exec .fact s = .next s1 ∧ exec .fenc s1 = .next s2 ∧
    (∀ i, slotValue s2.ev i = 0) ∧ exec .tfmt s2 = .next { s2 with obuf := s2.obuf ++ [0x0A] } ∧
    ∀ rest, exec .tprs { r with ibuf := 0x0A :: rest } = .next { r with b := 0, ibuf := rest, eos := false }

/-- 60_exceptions.md R189, 70_reset_and_hazards.md R217: a clean end of input is no fault; there `BPRS; FDEC` decodes the queue it
found, and TPRS leaves `B`. -/
def Obligations.EndOfInputDeliversNothing : Prop :=
  ∀ s : State, s.err = none → s.ibuf = [] → s.ist = .eos →
    exec .tprs s = .next { s with eos := true } ∧ exec .bprs s = .next { s with eos := true } ∧
    (∀ v, toByte s.fq = .ok v → exec .fdec { s with eos := true } = .next { s with eos := true, b := v })
end

