-- ==== Sys2Proof/Laws/Binary.lean ====
section
/-! SUPPORT. What the binary codec's functions do: fields, records, and the outcomes of looking for a record. -/

namespace Sys2Proof.Machine
/-- The 8 bytes of a fragment, written out. -/
theorem le8_eq (f : Frag) : le8 f = [f.extractLsb' 0 8, f.extractLsb' 8 8, f.extractLsb' 16 8, f.extractLsb' 24 8, f.extractLsb' 32 8, f.extractLsb' 40 8, f.extractLsb' 48 8, f.extractLsb' 56 8] := rfl

/-- `unLE8` undoes `LE8` (00_scope.md R10). -/
theorem unLe8_le8 (f : Frag) : unLe8 (le8 f) = f := by
  apply BitVec.eq_of_toNat_eq
  have := f.isLt
  simp [unLe8, le8_eq, bytesToNat, BitVec.extractLsb'_toNat, Nat.shiftRight_eq_div_pow]
  omega

/-- `LE8` undoes `unLE8` on 8 bytes (00_scope.md R10). -/
theorem le8_unLe8 (l : List Byte) (h : l.length = 8) : le8 (unLe8 l) = l := by
  match l, h with
  | [a, b, c, d, e, f, g, i], _ =>
    have := a.isLt; have := b.isLt; have := c.isLt; have := d.isLt; have := e.isLt; have := f.isLt; have := g.isLt; have := i.isLt
    simp only [le8_eq, List.cons.injEq, and_true]
    refine ⟨?_, ?_, ?_, ?_, ?_, ?_, ?_, ?_⟩ <;> apply BitVec.eq_of_toNat_eq <;>
      simp [unLe8, bytesToNat, BitVec.extractLsb'_toNat, Nat.shiftRight_eq_div_pow] <;> omega

/-- A fragment has 8 bytes. -/
theorem le8_length (f : Frag) : (le8 f).length = 8 := rfl

/-- A field has 8 bytes in either order. -/
theorem fragmentField_length (o : Config.ByteOrder) (f : Frag) : (fragmentField o f).length = 8 := by cases o <;> simp [fragmentField, inByteOrder, le8_length]

/-- Reversing twice changes nothing. -/
theorem inByteOrder_self (o : Config.ByteOrder) (l : List Byte) : inByteOrder o (inByteOrder o l) = l := by cases o <;> simp [inByteOrder]

/-- A field gives its fragment back, in either order. -/
theorem fieldFragment_field (o : Config.ByteOrder) (f : Frag) : fieldFragment o (fragmentField o f) = f := by
  rw [fieldFragment, fragmentField, inByteOrder_self, unLe8_le8]

/-- Reading the fields of a queue gives the queue back (45_binary_codec.md R159). -/
theorem readFragments_fields (o : Config.ByteOrder) (q : List Frag) (rest : List Byte) : readFragments o q.length (q.flatMap (fragmentField o) ++ rest) = q := by
  induction q with
  | nil => rfl
  | cons f q ih =>
    have := fragmentField_length o f
    simp only [List.length_cons, readFragments, List.flatMap_cons, List.append_assoc]
    rw [List.take_append_of_le_length (by omega), List.drop_append_of_le_length (by omega), ← this, List.take_length, List.drop_length, fieldFragment_field]
    simp [ih]

/-- As many fragments as the count says. -/
theorem readFragments_length (o : Config.ByteOrder) (n : Nat) (l : List Byte) : (readFragments o n l).length = n := by
  induction n generalizing l with
  | zero => rfl
  | succ n ih => simp [readFragments, ih]

/-- The fields of the fragments read are the bytes read. -/
theorem fields_readFragments (n : Nat) (l : List Byte) (h : l.length = 8 * n) : (readFragments .little n l).flatMap le8 = l := by
  induction n generalizing l with
  | zero => simp at h; simp [h, readFragments]
  | succ n ih => 
    simp only [readFragments, List.flatMap_cons, fieldFragment, inByteOrder]
    rw [le8_unLe8 _ (by simp; omega), ih _ (by simp; omega), List.take_append_drop]

/-- Everything `takeRecord` can answer (45_binary_codec.md R155). -/
theorem takeRecord_cons (n : Byte) (rest : List Byte) (ist : InputStatus) :
    takeRecord (n :: rest) ist =
      if 1 + 8 * n.toNat ≤ rest.length + 1 then .found n.toNat
      else match ist with
        | .opened => .holds
        | .eos => .fails .corruption
        | .err => .fails .readFailure := rfl

end Sys2Proof.Machine
end

