-- ==== Sys2Proof/Laws/Decode.lean ====
section
/-! SUPPORT. The fields of a command word and the words of commands as numbers, so that claims about decoding and encoding become
linear arithmetic. -/

namespace Sys2Proof

/-- Appending words is shifting and adding. -/
theorem toNat_append_add {m n : Nat} (x : BitVec m) (y : BitVec n) : (x ++ y).toNat = 2 ^ n * x.toNat + y.toNat := by
  rw [BitVec.toNat_append, Nat.shiftLeft_eq, Nat.mul_comm, ← Nat.two_pow_add_eq_or_of_lt y.isLt]

/-- The word of LDB as a number (30_encoding.md R71, format B). -/
theorem encode_ldb_toNat (a : Byte) : (encode (.ldb a)).toNat = 256 * a.toNat + 1 := by
  have : (0#56 ++ a ++ 0x01#8).toNat = 256 * a.toNat + 1 := by
    rw [toNat_append_add, toNat_append_add]; simp
  exact this

/-- The word of LDEV as a number (30_encoding.md R71, format S). -/
theorem encode_ldev_toNat (a v : Byte) : (encode (.ldev a v)).toNat = 65536 * v.toNat + 256 * a.toNat + 2 := by
  have : (0#48 ++ v ++ a ++ 0x02#8).toNat = 65536 * v.toNat + 256 * a.toNat + 2 := by
    rw [toNat_append_add, toNat_append_add, toNat_append_add]; simp; omega
  exact this

/-- The word of PUSHF as a number (30_encoding.md R71, format F). -/
theorem encode_pushf_toNat (f : Frag) : (encode (.pushf f)).toNat = 256 * f.toNat + 3 := by
  have : (f ++ 0x03#8).toNat = 256 * f.toNat + 3 := by
    rw [toNat_append_add]; simp
  exact this

/-- `cmd[7:0]` as a number. -/
theorem opcodeField_toNat (w : CmdWord) : (opcodeField w).toNat = w.toNat % 256 := by
  simp [opcodeField, BitVec.extractLsb'_toNat]

/-- `cmd[71:8]` as a number. -/
theorem argField_toNat (w : CmdWord) : (argField w).toNat = w.toNat / 256 := by
  have := w.isLt
  simp [argField, BitVec.extractLsb'_toNat, Nat.shiftRight_eq_div_pow]; omega

/-- `cmd[15:8]` as a number. -/
theorem lowByteField_toNat (w : CmdWord) : (lowByteField w).toNat = w.toNat / 256 % 256 := by
  simp [lowByteField, BitVec.extractLsb'_toNat, Nat.shiftRight_eq_div_pow]

/-- `cmd[23:16]` as a number. -/
theorem highByteField_toNat (w : CmdWord) : (highByteField w).toNat = w.toNat / 65536 % 256 := by
  simp [highByteField, BitVec.extractLsb'_toNat, Nat.shiftRight_eq_div_pow]

/-- `cmd[71:16]` as a number. -/
theorem mbzFieldB_toNat (w : CmdWord) : (mbzFieldB w).toNat = w.toNat / 2 ^ 16 := by
  have := w.isLt
  simp [mbzFieldB, BitVec.extractLsb'_toNat, Nat.shiftRight_eq_div_pow]; omega

/-- `cmd[71:24]` as a number. -/
theorem mbzFieldS_toNat (w : CmdWord) : (mbzFieldS w).toNat = w.toNat / 2 ^ 24 := by
  have := w.isLt
  simp [mbzFieldS, BitVec.extractLsb'_toNat, Nat.shiftRight_eq_div_pow]; omega

/-- The must-be-zero bits of a word, by its number. -/
theorem Machine.mbzBits_toNat (w : CmdWord) :
    mbzBits w = if w.toNat % 256 = 1 then w.toNat / 2 ^ 16 else if w.toNat % 256 = 2 then w.toNat / 2 ^ 24
      else if w.toNat % 256 = 3 then 0 else w.toNat / 2 ^ 8 := by
  simp [mbzBits, ← BitVec.toNat_inj, opcodeField_toNat]

/-- Everything a word of format N can decode to. -/
theorem decodeN_eq (w : CmdWord) (i : Instr) :
    decodeN w i = if w.toNat / 2 ^ 8 = 0 then .ok i else .error .nonZeroMbz := by
  simp [decodeN, ← BitVec.toNat_inj, argField_toNat]

/-- Everything a word of format B can decode to. -/
theorem decodeB_eq (w : CmdWord) (f : Byte → Instr) :
    decodeB w f = if w.toNat / 2 ^ 16 = 0 then .ok (f (lowByteField w)) else .error .nonZeroMbz := by
  simp [decodeB, ← BitVec.toNat_inj, mbzFieldB_toNat]

/-- Everything a word of format S can decode to. -/
theorem decodeS_eq (w : CmdWord) (f : Byte → Byte → Instr) :
    decodeS w f = if w.toNat / 2 ^ 24 = 0 then .ok (f (lowByteField w) (highByteField w)) else .error .nonZeroMbz := by
  simp [decodeS, ← BitVec.toNat_inj, mbzFieldS_toNat]

end Sys2Proof
end

