-- ==== Sys2Proof/Laws/State.lean ====
section
/-! SUPPORT. One lemma per field per named operation on the state, each true by `rfl`, so that no later proof unfolds a record
update. -/

namespace Sys2Proof.Machine

variable (s : State)

@[simp] theorem raiseFault_b (c : Cause) : (raiseFault c s).b = s.b := rfl
@[simp] theorem raiseFault_ev (c : Cause) : (raiseFault c s).ev = s.ev := rfl
@[simp] theorem raiseFault_fq (c : Cause) : (raiseFault c s).fq = s.fq := rfl
@[simp] theorem raiseFault_err (c : Cause) : (raiseFault c s).err = some c := rfl
@[simp] theorem raiseFault_eos (c : Cause) : (raiseFault c s).eos = s.eos := rfl
@[simp] theorem raiseFault_ibuf (c : Cause) : (raiseFault c s).ibuf = s.ibuf := rfl
@[simp] theorem raiseFault_ist (c : Cause) : (raiseFault c s).ist = s.ist := rfl
@[simp] theorem raiseFault_obuf (c : Cause) : (raiseFault c s).obuf = s.obuf := rfl
@[simp] theorem raiseFault_held (c : Cause) : (raiseFault c s).held = s.held := rfl
@[simp] theorem raiseFault_script (c : Cause) : (raiseFault c s).script = s.script := rfl

@[simp] theorem setB_b (v : Byte) : (setB v s).b = v := rfl
@[simp] theorem setB_ev (v : Byte) : (setB v s).ev = s.ev := rfl
@[simp] theorem setB_fq (v : Byte) : (setB v s).fq = s.fq := rfl
@[simp] theorem setB_err (v : Byte) : (setB v s).err = s.err := rfl
@[simp] theorem setB_eos (v : Byte) : (setB v s).eos = s.eos := rfl
@[simp] theorem setB_ibuf (v : Byte) : (setB v s).ibuf = s.ibuf := rfl
@[simp] theorem setB_ist (v : Byte) : (setB v s).ist = s.ist := rfl
@[simp] theorem setB_obuf (v : Byte) : (setB v s).obuf = s.obuf := rfl
@[simp] theorem setB_held (v : Byte) : (setB v s).held = s.held := rfl
@[simp] theorem setB_script (v : Byte) : (setB v s).script = s.script := rfl

@[simp] theorem setEv_b (v : ExpVec) : (setEv v s).b = s.b := rfl
@[simp] theorem setEv_ev (v : ExpVec) : (setEv v s).ev = v := rfl
@[simp] theorem setEv_fq (v : ExpVec) : (setEv v s).fq = s.fq := rfl
@[simp] theorem setEv_err (v : ExpVec) : (setEv v s).err = s.err := rfl
@[simp] theorem setEv_eos (v : ExpVec) : (setEv v s).eos = s.eos := rfl
@[simp] theorem setEv_ibuf (v : ExpVec) : (setEv v s).ibuf = s.ibuf := rfl
@[simp] theorem setEv_ist (v : ExpVec) : (setEv v s).ist = s.ist := rfl
@[simp] theorem setEv_obuf (v : ExpVec) : (setEv v s).obuf = s.obuf := rfl
@[simp] theorem setEv_held (v : ExpVec) : (setEv v s).held = s.held := rfl
@[simp] theorem setEv_script (v : ExpVec) : (setEv v s).script = s.script := rfl

@[simp] theorem setSlot_b (i : Fin Config.numSlots) (v : Byte) : (setSlot i v s).b = s.b := rfl
@[simp] theorem setSlot_ev (i : Fin Config.numSlots) (v : Byte) : (setSlot i v s).ev = s.ev.set i v := rfl
@[simp] theorem setSlot_fq (i : Fin Config.numSlots) (v : Byte) : (setSlot i v s).fq = s.fq := rfl
@[simp] theorem setSlot_err (i : Fin Config.numSlots) (v : Byte) : (setSlot i v s).err = s.err := rfl
@[simp] theorem setSlot_eos (i : Fin Config.numSlots) (v : Byte) : (setSlot i v s).eos = s.eos := rfl
@[simp] theorem setSlot_ibuf (i : Fin Config.numSlots) (v : Byte) : (setSlot i v s).ibuf = s.ibuf := rfl
@[simp] theorem setSlot_ist (i : Fin Config.numSlots) (v : Byte) : (setSlot i v s).ist = s.ist := rfl
@[simp] theorem setSlot_obuf (i : Fin Config.numSlots) (v : Byte) : (setSlot i v s).obuf = s.obuf := rfl
@[simp] theorem setSlot_held (i : Fin Config.numSlots) (v : Byte) : (setSlot i v s).held = s.held := rfl
@[simp] theorem setSlot_script (i : Fin Config.numSlots) (v : Byte) : (setSlot i v s).script = s.script := rfl

@[simp] theorem setFq_b (q : List Frag) : (setFq q s).b = s.b := rfl
@[simp] theorem setFq_ev (q : List Frag) : (setFq q s).ev = s.ev := rfl
@[simp] theorem setFq_fq (q : List Frag) : (setFq q s).fq = q := rfl
@[simp] theorem setFq_err (q : List Frag) : (setFq q s).err = s.err := rfl
@[simp] theorem setFq_eos (q : List Frag) : (setFq q s).eos = s.eos := rfl
@[simp] theorem setFq_ibuf (q : List Frag) : (setFq q s).ibuf = s.ibuf := rfl
@[simp] theorem setFq_ist (q : List Frag) : (setFq q s).ist = s.ist := rfl
@[simp] theorem setFq_obuf (q : List Frag) : (setFq q s).obuf = s.obuf := rfl
@[simp] theorem setFq_held (q : List Frag) : (setFq q s).held = s.held := rfl
@[simp] theorem setFq_script (q : List Frag) : (setFq q s).script = s.script := rfl

@[simp] theorem setEos_b (v : Bool) : (setEos v s).b = s.b := rfl
@[simp] theorem setEos_ev (v : Bool) : (setEos v s).ev = s.ev := rfl
@[simp] theorem setEos_fq (v : Bool) : (setEos v s).fq = s.fq := rfl
@[simp] theorem setEos_err (v : Bool) : (setEos v s).err = s.err := rfl
@[simp] theorem setEos_eos (v : Bool) : (setEos v s).eos = v := rfl
@[simp] theorem setEos_ibuf (v : Bool) : (setEos v s).ibuf = s.ibuf := rfl
@[simp] theorem setEos_ist (v : Bool) : (setEos v s).ist = s.ist := rfl
@[simp] theorem setEos_obuf (v : Bool) : (setEos v s).obuf = s.obuf := rfl
@[simp] theorem setEos_held (v : Bool) : (setEos v s).held = s.held := rfl
@[simp] theorem setEos_script (v : Bool) : (setEos v s).script = s.script := rfl

@[simp] theorem outPut_b (bytes : List Byte) : (outPut bytes s).b = s.b := rfl
@[simp] theorem outPut_ev (bytes : List Byte) : (outPut bytes s).ev = s.ev := rfl
@[simp] theorem outPut_fq (bytes : List Byte) : (outPut bytes s).fq = s.fq := rfl
@[simp] theorem outPut_err (bytes : List Byte) : (outPut bytes s).err = s.err := rfl
@[simp] theorem outPut_eos (bytes : List Byte) : (outPut bytes s).eos = s.eos := rfl
@[simp] theorem outPut_ibuf (bytes : List Byte) : (outPut bytes s).ibuf = s.ibuf := rfl
@[simp] theorem outPut_ist (bytes : List Byte) : (outPut bytes s).ist = s.ist := rfl
@[simp] theorem outPut_obuf (bytes : List Byte) : (outPut bytes s).obuf = s.obuf ++ bytes := rfl
@[simp] theorem outPut_held (bytes : List Byte) : (outPut bytes s).held = s.held := rfl
@[simp] theorem outPut_script (bytes : List Byte) : (outPut bytes s).script = s.script := rfl

@[simp] theorem inTake_b (n : Nat) : (inTake n s).b = s.b := rfl
@[simp] theorem inTake_ev (n : Nat) : (inTake n s).ev = s.ev := rfl
@[simp] theorem inTake_fq (n : Nat) : (inTake n s).fq = s.fq := rfl
@[simp] theorem inTake_err (n : Nat) : (inTake n s).err = s.err := rfl
@[simp] theorem inTake_eos (n : Nat) : (inTake n s).eos = s.eos := rfl
@[simp] theorem inTake_ibuf (n : Nat) : (inTake n s).ibuf = s.ibuf.drop n := rfl
@[simp] theorem inTake_ist (n : Nat) : (inTake n s).ist = s.ist := rfl
@[simp] theorem inTake_obuf (n : Nat) : (inTake n s).obuf = s.obuf := rfl
@[simp] theorem inTake_held (n : Nat) : (inTake n s).held = s.held := rfl
@[simp] theorem inTake_script (n : Nat) : (inTake n s).script = s.script := rfl

@[simp] theorem holdOn_b (c : ParseCommand) : (holdOn c s).b = s.b := rfl
@[simp] theorem holdOn_ev (c : ParseCommand) : (holdOn c s).ev = s.ev := rfl
@[simp] theorem holdOn_fq (c : ParseCommand) : (holdOn c s).fq = s.fq := rfl
@[simp] theorem holdOn_err (c : ParseCommand) : (holdOn c s).err = s.err := rfl
@[simp] theorem holdOn_eos (c : ParseCommand) : (holdOn c s).eos = s.eos := rfl
@[simp] theorem holdOn_ibuf (c : ParseCommand) : (holdOn c s).ibuf = s.ibuf := rfl
@[simp] theorem holdOn_ist (c : ParseCommand) : (holdOn c s).ist = s.ist := rfl
@[simp] theorem holdOn_obuf (c : ParseCommand) : (holdOn c s).obuf = s.obuf := rfl
@[simp] theorem holdOn_held (c : ParseCommand) : (holdOn c s).held = some c := rfl
@[simp] theorem holdOn_script (c : ParseCommand) : (holdOn c s).script = s.script := rfl

@[simp] theorem releaseHold_b : (releaseHold s).b = s.b := rfl
@[simp] theorem releaseHold_ev : (releaseHold s).ev = s.ev := rfl
@[simp] theorem releaseHold_fq : (releaseHold s).fq = s.fq := rfl
@[simp] theorem releaseHold_err : (releaseHold s).err = s.err := rfl
@[simp] theorem releaseHold_eos : (releaseHold s).eos = s.eos := rfl
@[simp] theorem releaseHold_ibuf : (releaseHold s).ibuf = s.ibuf := rfl
@[simp] theorem releaseHold_ist : (releaseHold s).ist = s.ist := rfl
@[simp] theorem releaseHold_obuf : (releaseHold s).obuf = s.obuf := rfl
@[simp] theorem releaseHold_held : (releaseHold s).held = none := rfl
@[simp] theorem releaseHold_script : (releaseHold s).script = s.script := rfl

@[simp] theorem appendInput_b (b : Byte) : (appendInput b s).b = s.b := rfl
@[simp] theorem appendInput_ev (b : Byte) : (appendInput b s).ev = s.ev := rfl
@[simp] theorem appendInput_fq (b : Byte) : (appendInput b s).fq = s.fq := rfl
@[simp] theorem appendInput_err (b : Byte) : (appendInput b s).err = s.err := rfl
@[simp] theorem appendInput_eos (b : Byte) : (appendInput b s).eos = s.eos := rfl
@[simp] theorem appendInput_ibuf (b : Byte) : (appendInput b s).ibuf = s.ibuf ++ [b] := rfl
@[simp] theorem appendInput_ist (b : Byte) : (appendInput b s).ist = s.ist := rfl
@[simp] theorem appendInput_obuf (b : Byte) : (appendInput b s).obuf = s.obuf := rfl
@[simp] theorem appendInput_held (b : Byte) : (appendInput b s).held = s.held := rfl
@[simp] theorem appendInput_script (b : Byte) : (appendInput b s).script = s.script := rfl

@[simp] theorem closeInput_b (v : InputStatus) : (closeInput v s).b = s.b := rfl
@[simp] theorem closeInput_ev (v : InputStatus) : (closeInput v s).ev = s.ev := rfl
@[simp] theorem closeInput_fq (v : InputStatus) : (closeInput v s).fq = s.fq := rfl
@[simp] theorem closeInput_err (v : InputStatus) : (closeInput v s).err = s.err := rfl
@[simp] theorem closeInput_eos (v : InputStatus) : (closeInput v s).eos = s.eos := rfl
@[simp] theorem closeInput_ibuf (v : InputStatus) : (closeInput v s).ibuf = s.ibuf := rfl
@[simp] theorem closeInput_ist (v : InputStatus) : (closeInput v s).ist = v := rfl
@[simp] theorem closeInput_obuf (v : InputStatus) : (closeInput v s).obuf = s.obuf := rfl
@[simp] theorem closeInput_held (v : InputStatus) : (closeInput v s).held = s.held := rfl
@[simp] theorem closeInput_script (v : InputStatus) : (closeInput v s).script = s.script := rfl

@[simp] theorem drainOutput_b (n : Nat) : (drainOutput n s).b = s.b := rfl
@[simp] theorem drainOutput_ev (n : Nat) : (drainOutput n s).ev = s.ev := rfl
@[simp] theorem drainOutput_fq (n : Nat) : (drainOutput n s).fq = s.fq := rfl
@[simp] theorem drainOutput_err (n : Nat) : (drainOutput n s).err = s.err := rfl
@[simp] theorem drainOutput_eos (n : Nat) : (drainOutput n s).eos = s.eos := rfl
@[simp] theorem drainOutput_ibuf (n : Nat) : (drainOutput n s).ibuf = s.ibuf := rfl
@[simp] theorem drainOutput_ist (n : Nat) : (drainOutput n s).ist = s.ist := rfl
@[simp] theorem drainOutput_obuf (n : Nat) : (drainOutput n s).obuf = s.obuf.drop n := rfl
@[simp] theorem drainOutput_held (n : Nat) : (drainOutput n s).held = s.held := rfl
@[simp] theorem drainOutput_script (n : Nat) : (drainOutput n s).script = s.script := rfl

@[simp] theorem setScript_b (moves : List HostMove) : (setScript moves s).b = s.b := rfl
@[simp] theorem setScript_ev (moves : List HostMove) : (setScript moves s).ev = s.ev := rfl
@[simp] theorem setScript_fq (moves : List HostMove) : (setScript moves s).fq = s.fq := rfl
@[simp] theorem setScript_err (moves : List HostMove) : (setScript moves s).err = s.err := rfl
@[simp] theorem setScript_eos (moves : List HostMove) : (setScript moves s).eos = s.eos := rfl
@[simp] theorem setScript_ibuf (moves : List HostMove) : (setScript moves s).ibuf = s.ibuf := rfl
@[simp] theorem setScript_ist (moves : List HostMove) : (setScript moves s).ist = s.ist := rfl
@[simp] theorem setScript_obuf (moves : List HostMove) : (setScript moves s).obuf = s.obuf := rfl
@[simp] theorem setScript_held (moves : List HostMove) : (setScript moves s).held = s.held := rfl
@[simp] theorem setScript_script (moves : List HostMove) : (setScript moves s).script = moves := rfl

@[simp] theorem resetBlock_b : (resetBlock s).b = 0 := rfl
@[simp] theorem resetBlock_ev : (resetBlock s).ev = Vector.replicate Config.numSlots 0 := rfl
@[simp] theorem resetBlock_fq : (resetBlock s).fq = [] := rfl
@[simp] theorem resetBlock_err : (resetBlock s).err = none := rfl
@[simp] theorem resetBlock_eos : (resetBlock s).eos = false := rfl
@[simp] theorem resetBlock_ibuf : (resetBlock s).ibuf = [] := rfl
@[simp] theorem resetBlock_ist : (resetBlock s).ist = .opened := rfl
@[simp] theorem resetBlock_obuf : (resetBlock s).obuf = [] := rfl
@[simp] theorem resetBlock_held : (resetBlock s).held = none := rfl
@[simp] theorem resetBlock_script : (resetBlock s).script = s.script := rfl

@[simp] theorem withHost_toBlock (moves : List HostMove) (k : Block) : (withHost moves k).toBlock = k := rfl
@[simp] theorem withHost_held (moves : List HostMove) (k : Block) : (withHost moves k).held = none := rfl
@[simp] theorem withHost_script (moves : List HostMove) (k : Block) : (withHost moves k).script = moves := rfl

@[simp] theorem setScript_toBlock (moves : List HostMove) : (setScript moves s).toBlock = s.toBlock := rfl
@[simp] theorem setScript_setScript (moves moves' : List HostMove) : setScript moves (setScript moves' s) = setScript moves s := rfl
@[simp] theorem releaseHold_toBlock : (releaseHold s).toBlock = s.toBlock := rfl
@[simp] theorem holdOn_toBlock (c : ParseCommand) : (holdOn c s).toBlock = s.toBlock := rfl

@[simp] theorem carryScript_next (moves : List HostMove) : carryScript moves (.next s) = .next (setScript moves s) := rfl

/-- A state with nothing holding is its block with the host's moves beside it. -/
theorem withHost_of_not_held (h : s.held = none) (moves : List HostMove) : withHost moves s.toBlock = setScript moves s := by
  cases s; cases h; rfl

end Sys2Proof.Machine
end

