-- ==== Sys2Proof/Laws/Ops.lean ====
section
/-! SUPPORT. What the shared operations over the state can do: the guard of the faulted block, the shape of a parse command, slot
numbers, the status. -/

namespace Sys2Proof.Machine

/-- On a live block a command acts. -/
@[simp] theorem unlessFaulted_live {s : State} {act : State → Result} (h : s.err = none) : unlessFaulted s act = act s := by
  simp [unlessFaulted, h]

/-- On a faulted block a command changes nothing (60_exceptions.md R184). -/
theorem unlessFaulted_faulted {s : State} {act : State → Result} (h : s.err ≠ none) : unlessFaulted s act = .next s := by
  cases e : s.err with
  | none => exact absurd e h
  | some c => simp [unlessFaulted, e]

/-- Everything the guard can do. -/
theorem unlessFaulted_next {s t : State} {act : State → Result} (h : unlessFaulted s act = .next t) :
    (s.err ≠ none ∧ t = s) ∨ (s.err = none ∧ act s = .next t) := by
  by_cases e : s.err = none
  · exact .inr ⟨e, by rwa [unlessFaulted_live e] at h⟩
  · rw [unlessFaulted_faulted e] at h
    cases h
    exact .inl ⟨e, rfl⟩

/-- Everything the shared shape of TPRS and BPRS can do. -/
theorem parseUnit_next {c : ParseCommand} {outcome : Take} {consume : Nat → State → Result} {s t : State}
    (h : parseUnit c outcome consume s = .next t) :
    (∃ n, outcome = .found n ∧ consume n s = .next t) ∨ (outcome = .endOfInput ∧ t = setEos true s) ∨
    (outcome = .holds ∧ t = holdOn c s) ∨ ∃ cause, outcome = .fails cause ∧ t = raiseFault cause s := by
  cases outcome with
  | found n => exact .inl ⟨n, rfl, h⟩
  | endOfInput => cases h; exact .inr (.inl ⟨rfl, rfl⟩)
  | holds => cases h; exact .inr (.inr (.inl ⟨rfl, rfl⟩))
  | fails cause => cases h; exact .inr (.inr (.inr ⟨cause, rfl, rfl⟩))

/-- A number below 55 names its slot. -/
theorem slotOf_lt {n : Nat} (h : n < Config.numSlots) : slotOf n = some ⟨n, h⟩ := by simp [slotOf, h]

/-- A number above 54 names no slot. -/
theorem slotOf_ge {n : Nat} (h : Config.numSlots ≤ n) : slotOf n = none := by simp [slotOf, Nat.not_lt.mpr h]

/-- The slot a number names has that number. -/
theorem slotOf_eq_some {n : Nat} {i : Fin Config.numSlots} : slotOf n = some i ↔ n = i.val := by
  unfold slotOf
  split
  · simp only [Option.some.injEq, Fin.ext_iff]
  · rename_i h
    have := i.isLt
    simp only [false_iff, reduceCtorEq]
    omega

/-- The code of a cause is 1 to 7 (60_exceptions.md R180). -/
theorem causeCode_range (c : Cause) : 1 ≤ (causeCode c).toNat ∧ (causeCode c).toNat ≤ 7 := by cases c <;> decide

/-- Two causes with one code are the same. -/
theorem causeCode_injective {c c' : Cause} (h : causeCode c = causeCode c') : c = c' := by
  cases c <;> cases c' <;> first | rfl | exact absurd h (by decide)

end Sys2Proof.Machine
end

