-- ==== Sys2Proof/Laws/Exec.lean ====
section
/-! SUPPORT. Everything a command can do, said once: `Effect i s t` lists the ways a command `i` takes a live block from `s` to `t`,
and `exec_effect` shows there are no others. Frames, invariants and fault claims are case splits on it. -/

namespace Sys2Proof.Machine

/-- The effects of a command on a live block. -/
inductive Effect : Instr → State → State → Prop
  | nop (s) : Effect .nop s s
  | ldb (s) (v : Byte) : Effect (.ldb v) s (setB v s)
  | ldev (s) (idx v : Byte) (j : Fin Config.numSlots) (h : idx.toNat = j.val) : Effect (.ldev idx v) s (setSlot j v s)
  | ldevBad (s) (idx v : Byte) (h : 54 < idx.toNat) : Effect (.ldev idx v) s (raiseFault .illegalOperand s)
  | pushf (s) (f : Frag) (h : s.fq.length < 255) : Effect (.pushf f) s (setFq (s.fq ++ [f]) s)
  | pushfFull (s) (f : Frag) (h : 255 ≤ s.fq.length) : Effect (.pushf f) s (raiseFault .queueOverflow s)
  | clrf (s) : Effect .clrf s (setFq [] s)
  | fact (s) (v : ExpVec) (h : factorize s.b = .ok v) : Effect .fact s (setEv v s)
  | factRaises (s) (c : Cause) (h : factorize s.b = .error c) : Effect .fact s (raiseFault c s)
  | fenc (s) : Effect .fenc s (setEv zeroVec (setFq (toFragments s.ev) s))
  | fdec (s) (v : Byte) (h : toByte s.fq = .ok v) : Effect .fdec s (setB v s)
  | fdecRaises (s) (c : Cause) (h : toByte s.fq = .error c) : Effect .fdec s (raiseFault c s)
  | tfmt (s) : Effect .tfmt s (outPut (formatLine s.ev) s)
  | tprs (s) (n : Nat) (v : Byte) (h : takeLine s.ibuf s.ist = .found n) (hv : lineByte (s.ibuf.take n) = .ok v) :
      Effect .tprs s (setEos false (inTake (n + 1) (setB v s)))
  | tprsRaises (s) (n : Nat) (c : Cause) (h : takeLine s.ibuf s.ist = .found n)
      (hc : lineByte (s.ibuf.take n) = .error c) : Effect .tprs s (raiseFault c s)
  | bfmt (s) : Effect .bfmt s (outPut (formatRecord Config.fragByteOrder s.fq) s)
  | bprs (s) (n : Nat) (h : takeRecord s.ibuf s.ist = .found n) : Effect .bprs s (setEos false
      (inTake (recordLength n) (setFq (readFragments Config.fragByteOrder n (s.ibuf.drop 1)) s)))
  | endOfInput (s) (c : ParseCommand) (h : unitOutcome c s = .endOfInput) : Effect (parseInstr c) s (setEos true s)
  | holds (s) (c : ParseCommand) (h : unitOutcome c s = .holds) : Effect (parseInstr c) s (holdOn c s)
  | fails (s) (c : ParseCommand) (cause : Cause) (h : unitOutcome c s = .fails cause) :
      Effect (parseInstr c) s (raiseFault cause s)

/-- The shared shape of TPRS and BPRS, as effects. -/
theorem parseUnit_effect {c : ParseCommand} {consume : Nat → State → Result} {s t : State}
    (h : parseUnit c (unitOutcome c s) consume s = .next t)
    (found : ∀ n, unitOutcome c s = .found n → consume n s = .next t → Effect (parseInstr c) s t) :
    Effect (parseInstr c) s t := by
  rcases parseUnit_next h with ⟨n, ho, hc⟩ | ⟨ho, rfl⟩ | ⟨ho, rfl⟩ | ⟨cause, ho, rfl⟩
  · exact found n ho hc
  · exact .endOfInput s c ho
  · exact .holds s c ho
  · exact .fails s c cause ho

/-- A command on a live block has one of the listed effects. -/
theorem exec_effect {i : Instr} {s t : State} (live : s.err = none) (h : exec i s = .next t) : Effect i s t := by
  cases i with
  | nop => simp only [exec, execNop, unlessFaulted_live live] at h; cases h; exact .nop s
  | ldb v => simp only [exec, execLdb, unlessFaulted_live live] at h; cases h; exact .ldb s v
  | ldev idx v =>
    simp only [exec, execLdev, unlessFaulted_live live] at h
    by_cases hi : idx.toNat < Config.numSlots
    · rw [slotOf_lt hi] at h; cases h; exact .ldev s idx v _ rfl
    · rw [slotOf_ge (Nat.not_lt.mp hi)] at h; cases h; exact .ldevBad s idx v (Nat.not_lt.mp hi)
  | pushf f =>
    simp only [exec, execPushf, unlessFaulted_live live] at h
    split at h <;> cases h
    · exact .pushf s f ‹_›
    · exact .pushfFull s f (Nat.not_lt.mp ‹_›)
  | clrf => simp only [exec, execClrf, unlessFaulted_live live] at h; cases h; exact .clrf s
  | fact =>
    simp only [exec, execFact, unlessFaulted_live live] at h
    split at h <;> cases h
    · exact .fact s _ ‹_›
    · exact .factRaises s _ ‹_›
  | fenc => simp only [exec, execFenc, unlessFaulted_live live] at h; cases h; exact .fenc s
  | fdec =>
    simp only [exec, execFdec, unlessFaulted_live live] at h
    split at h <;> cases h
    · exact .fdec s _ ‹_›
    · exact .fdecRaises s _ ‹_›
  | tfmt => simp only [exec, execTfmt, unlessFaulted_live live] at h; cases h; exact .tfmt s
  | tprs =>
    simp only [exec, execTprs, unlessFaulted_live live] at h
    refine parseUnit_effect (c := .tprs) h fun n ho hc => ?_
    unfold consumeLine at hc
    split at hc <;> cases hc
    · exact .tprs s n _ ho ‹_›
    · exact .tprsRaises s n _ ho ‹_›
  | bfmt => simp only [exec, execBfmt, unlessFaulted_live live] at h; cases h; exact .bfmt s
  | bprs =>
    simp only [exec, execBprs, unlessFaulted_live live] at h
    refine parseUnit_effect (c := .bprs) h fun n ho hc => ?_
    cases hc
    exact .bprs s n ho

/-- A command on a faulted block changes nothing (60_exceptions.md R184). -/
theorem exec_of_faulted (i : Instr) {s : State} (faulted : s.err ≠ none) : exec i s = .next s := by
  cases i <;> simp only [exec, execNop, execLdb, execLdev, execPushf, execClrf, execFact, execFenc, execFdec, execTfmt,
    execTprs, execBfmt, execBprs, unlessFaulted_faulted faulted]

/-- The shared shape of TPRS and BPRS neither reads nor writes the host's list. -/
theorem parseUnit_setScript (c : ParseCommand) (outcome : Take) (consume : Nat → State → Result) (s : State) (moves : List HostMove)
    (h : ∀ n, consume n (setScript moves s) = carryScript moves (consume n s)) :
    parseUnit c outcome consume (setScript moves s) = carryScript moves (parseUnit c outcome consume s) := by
  cases outcome with
  | found n => exact h n
  | endOfInput => rfl
  | holds => rfl
  | fails c => rfl

/-- What TPRS does with a line neither reads nor writes the host's list. -/
theorem consumeLine_setScript (n : Nat) (s : State) (moves : List HostMove) :
    consumeLine n (setScript moves s) = carryScript moves (consumeLine n s) := by
  simp only [consumeLine, setScript_ibuf]
  split <;> rfl

/-- No command reads or writes the host's list: it is no part of the machine's state (10_state.md R42, 00_scope.md R14). -/
theorem exec_setScript (i : Instr) (s : State) (moves : List HostMove) :
    exec i (setScript moves s) = carryScript moves (exec i s) := by
  by_cases e : s.err = none
  · have e' : (setScript moves s).err = none := e
    cases i <;> simp only [exec, execNop, execLdb, execLdev, execPushf, execClrf, execFact, execFenc, execFdec, execTfmt,
      execTprs, execBfmt, execBprs, unlessFaulted_live e, unlessFaulted_live e']
    case tprs => exact parseUnit_setScript _ _ _ _ _ fun n => consumeLine_setScript n s moves
    case bprs => exact parseUnit_setScript _ _ _ _ _ fun _ => rfl
    case ldev => split <;> rfl
    case pushf => simp only [setScript_fq]; by_cases h : s.fq.length < Config.queueDepth <;> simp only [h] <;> rfl
    case fact => simp only [setScript_b]; split <;> rfl
    case fdec => simp only [setScript_fq]; split <;> rfl
    all_goals rfl
  · rw [exec_of_faulted _ e, exec_of_faulted (s := setScript moves s) _ e, carryScript_next]

end Sys2Proof.Machine
end

