-- ==== Sys2Proof/Laws/Fragments.lean ====
section
/-! SUPPORT. What the fragment encoder's loop does: its fragments are the layers of the vector (42_fragment_encoder.md R112). -/

namespace Sys2Proof.Machine

/-- Bit `i` of the number of a list of bits is its `i`-th. -/
theorem bitsToNat_testBit (bs : List Bool) (i : Nat) : (bitsToNat bs).testBit i = bs.getD i false := by
  induction bs generalizing i with
  | nil => simp [bitsToNat]
  | cons b bs ih =>
    cases i with
    | zero => cases b <;> simp [bitsToNat, Nat.testBit_zero]
    | succ i =>
      have h : (b.toNat + 2 * bitsToNat bs) / 2 = bitsToNat bs := by
        cases b with
        | false => simp
        | true => simp only [Bool.toNat_true]; omega
      rw [bitsToNat, Nat.testBit_succ, h, ih]
      rfl

/-- The largest value of a list of slots. -/
def maxSlot (v : List Byte) : Nat := (v.map (·.toNat)).foldr max 0

/-- No slot exceeds the largest. -/
theorem le_maxSlot {v : List Byte} {x : Byte} (h : x ∈ v) : x.toNat ≤ maxSlot v := by
  induction v with
  | nil => cases h
  | cons y ys ih =>
    simp only [maxSlot, List.map_cons, List.foldr_cons] at *
    rcases List.mem_cons.1 h with rfl | h
    · omega
    · have := ih h; omega

/-- A pass takes one unit off a positive slot. -/
theorem decSlot_toNat (x : Byte) : (decSlot x).toNat = x.toNat - 1 := by
  unfold decSlot
  split
  · have := x.isLt; simp [BitVec.toNat_sub]; omega
  · omega

/-- A pass lowers the largest slot by one. -/
theorem maxSlot_passRest (v : List Byte) : maxSlot (passRest v) = maxSlot v - 1 := by
  induction v with
  | nil => rfl
  | cons x xs ih =>
    simp only [maxSlot, passRest, List.map_cons, List.foldr_cons, decSlot_toNat] at *
    rw [ih]; omega

/-- Every slot is 0 when the largest is. -/
theorem all_zero_iff_maxSlot (v : List Byte) : v.all (· == 0) = true ↔ maxSlot v = 0 := by
  induction v with
  | nil => simp [maxSlot]
  | cons x xs ih =>
    simp only [maxSlot, List.map_cons, List.foldr_cons, List.all_cons, Bool.and_eq_true] at *
    rw [ih, beq_iff_eq, ← BitVec.toNat_inj]
    simp

/-- The fragment of pass `j`: the slots above `j`. -/
def layer (v : List Byte) (j : Nat) : Frag := BitVec.ofNat 64 (bitsToNat (v.map fun x => decide (j < x.toNat)))

/-- Pass `j` of what a pass leaves is pass `j + 1`. -/
theorem layer_passRest (v : List Byte) (j : Nat) : layer (passRest v) j = layer v (j + 1) := by
  unfold layer passRest
  rw [List.map_map]
  congr 2
  apply List.map_congr_left
  intro x _
  simp only [Function.comp, decSlot_toNat, decide_eq_decide]
  omega

/-- Everything the do-while loop can do: one fragment for each unit of the largest slot, and at least one (42_fragment_encoder.md R112, R113). -/
theorem peel_eq_layers (fuel : Nat) (v : List Byte) (hf : 1 ≤ fuel) (h : maxSlot v ≤ fuel) :
    peel fuel v = (List.range (max 1 (maxSlot v))).map (layer v) := by
  induction fuel generalizing v with
  | zero => omega
  | succ fuel ih =>
    have h0 : passFragment v = layer v 0 := rfl
    simp only [peel, h0]
    have hm := maxSlot_passRest v
    by_cases hz : maxSlot (passRest v) = 0
    · rw [if_pos ((all_zero_iff_maxSlot _).2 hz)]
      have : max 1 (maxSlot v) = 1 := by omega
      rw [this]; rfl
    · rw [if_neg (fun hc => hz ((all_zero_iff_maxSlot _).1 hc)), ih _ (by omega) (by omega)]
      have e : max 1 (maxSlot v) = max 1 (maxSlot (passRest v)) + 1 := by omega
      rw [e, List.range_succ_eq_map, List.map_cons, List.map_map]
      congr 1
      apply List.map_congr_left
      intro j _
      exact layer_passRest v j

/-- An 8-bit slot is at most 255. -/
theorem maxSlot_le_255 (v : List Byte) : maxSlot v ≤ 255 := by
  induction v with
  | nil => simp [maxSlot]
  | cons x xs ih =>
    have := x.isLt
    simp only [maxSlot, List.map_cons, List.foldr_cons] at *
    omega

/-- `toFragments` as its layers. -/
theorem toFragments_eq_layers (v : ExpVec) : toFragments v = (List.range (max 1 (maxSlot v.toList))).map (layer v.toList) :=
  peel_eq_layers 255 _ (by decide) (maxSlot_le_255 _)

/-- Bit `i` of the fragment of pass `j` says `j < v[i]`; bits 55 to 63 are 0. -/
theorem layer_getLsbD (v : ExpVec) (j i : Nat) : (layer v.toList j).getLsbD i = decide (j < slotValue v i) := by
  have hlen : v.toList.length = 55 := by simp
  rw [layer, BitVec.getLsbD_ofNat, bitsToNat_testBit, slotValue]
  by_cases hi : i < 55
  · simp [List.getD, hi, show i < 64 by omega]
  · have : v.toList[i]? = none := List.getElem?_eq_none (by omega)
    simp [List.getD, this]

/-- A number that is no slot has the value 0. -/
theorem slotValue_ge (v : ExpVec) {i : Nat} (h : 55 ≤ i) : slotValue v i = 0 := by
  simp [slotValue, List.getElem?_eq_none (show v.toList.length ≤ i by simpa using h)]

/-- A vector's slots are known from the 55 of them. -/
theorem slotValue_eq_of {v : ExpVec} {f : Nat → Nat} (h : ∀ i, i < 55 → slotValue v i = f i)
    (h0 : ∀ i, 55 ≤ i → f i = 0) : ∀ i, slotValue v i = f i := fun i => by
  by_cases hi : i < 55
  · exact h i hi
  · rw [slotValue_ge v (by omega), h0 i (by omega)]

end Sys2Proof.Machine
end

