-- ==== Sys2Proof/Laws/PerInstr.lean ====
section
/-! SUPPORT. A statement made command by command: the word of a command selects the opcode-table row with the command's mnemonic
(30_encoding.md R75, R80), whatever its operands. -/

namespace Sys2Proof

/-- A word selects a row when its bits under the mask are the row's, bit by bit. -/
theorem OpcodeRow.selects_eq (r : OpcodeRow) (w : CmdWord) : r.selects w = true ↔ w &&& r.mask = r.matchBits := by
  simp [OpcodeRow.selects]

end Sys2Proof

namespace Sys2Proof.Laws.EncodesInRow

/-- The word of `i` selects a row of the opcode table, and the row has `i`'s mnemonic. -/
def Statement (i : Instr) : Prop := ∃ r ∈ opcodeTable, r.mnemonic = i.mnemonic ∧ r.selects (encode i) = true

theorem nop : Statement .nop := by unfold Statement; decide

theorem ldb (imm8 : Byte) : Statement (.ldb imm8) := by
  refine ⟨⟨"LDB", 0x000000000000000001, 0xFFFFFFFFFFFFFF00FF⟩, by decide, rfl, ?_⟩
  revert imm8; decide

theorem ldev (idx val : Byte) : Statement (.ldev idx val) := by
  refine ⟨⟨"LDEV", 0x000000000000000002, 0xFFFFFFFFFFFF0000FF⟩, by decide, rfl, ?_⟩
  rw [OpcodeRow.selects_eq]
  ext i hi
  simp only [encode, BitVec.getElem_and, BitVec.getElem_append]
  interval_cases i <;> simp

theorem pushf (frag : Frag) : Statement (.pushf frag) := by
  refine ⟨⟨"PUSHF", 0x000000000000000003, 0x0000000000000000FF⟩, by decide, rfl, ?_⟩
  rw [OpcodeRow.selects_eq]
  ext i hi
  simp only [encode, BitVec.getElem_and, BitVec.getElem_append]
  interval_cases i <;> simp

theorem clrf : Statement .clrf := by unfold Statement; decide

theorem fact : Statement .fact := by unfold Statement; decide

theorem fenc : Statement .fenc := by unfold Statement; decide

theorem fdec : Statement .fdec := by unfold Statement; decide

theorem tfmt : Statement .tfmt := by unfold Statement; decide

theorem tprs : Statement .tprs := by unfold Statement; decide

theorem bfmt : Statement .bfmt := by unfold Statement; decide

theorem bprs : Statement .bprs := by unfold Statement; decide

end Sys2Proof.Laws.EncodesInRow
end

