-- ==== Sys2Proof/Laws/Products.lean ====
section
/-! SUPPORT. What the decoders' accumulator does: the checked 16-bit products are products over the naturals. -/

namespace Sys2Proof.Machine

/-- The checked multiplication is the one over the naturals (43_fragment_decoder.md R122). -/
theorem mulChecked_eq (acc : Acc) (p : Byte) (h : acc.toNat ≤ 255) :
    mulChecked acc p = if 255 < acc.toNat * p.toNat then .error .accRange
      else .ok (BitVec.ofNat 16 (acc.toNat * p.toNat)) := by
  have hp := p.isLt
  have hm : acc.toNat * p.toNat ≤ 255 * 255 := Nat.mul_le_mul h (by omega)
  have e : (acc * p.setWidth 16).toNat = acc.toNat * p.toNat := by
    rw [BitVec.toNat_mul, BitVec.toNat_setWidth, Nat.mod_eq_of_lt (a := p.toNat) (by omega), Nat.mod_eq_of_lt (by omega)]
  have e' : acc * p.setWidth 16 = BitVec.ofNat 16 (acc.toNat * p.toNat) := by
    apply BitVec.eq_of_toNat_eq; rw [e, BitVec.toNat_ofNat, Nat.mod_eq_of_lt (by omega)]
  simp only [mulChecked, e]
  split
  · rfl
  · rw [e']

/-- Every prime of the table is at least 2. -/
theorem primeTable_pos : ∀ p ∈ primeTable, 2 ≤ p.toNat := by decide

/-- The prime of a slot is at least 2. -/
theorem slotPrime_ge {i : Nat} {p : Byte} (h : slotPrime i = some p) : 2 ≤ p.toNat := by
  cases i with
  | zero => cases h
  | succ n => exact primeTable_pos p (List.mem_of_getElem? h)

/-- The unity slot's factor. -/
theorem slotFactor_of_none {i : Nat} (h : slotPrime i = none) : slotFactor i = 1 := by simp [slotFactor, h]

/-- A prime slot's factor. -/
theorem slotFactor_of_some {i : Nat} {p : Byte} (h : slotPrime i = some p) : slotFactor i = p.toNat := by simp [slotFactor, h]

/-- The factor of a slot is at least 1. -/
theorem slotFactor_pos (i : Nat) : 1 ≤ slotFactor i := by
  unfold slotFactor
  split
  · exact Nat.le_refl _
  · rename_i h; have := slotPrime_ge h; omega

/-- Everything one set bit can do (43_fragment_decoder.md R121). -/
theorem visitSlot_eq (d : DecodeState) (i : Nat) (h : d.acc.toNat ≤ 255) :
    visitSlot d i = if 255 < d.acc.toNat * slotFactor i then .error .accRange
      else .ok ⟨BitVec.ofNat 16 (d.acc.toNat * slotFactor i), true⟩ := by
  unfold visitSlot
  split
  · rename_i hp
    rw [slotFactor_of_none hp, Nat.mul_one, if_neg (by omega)]
    simp
  · rename_i p hp
    rw [mulChecked_eq _ _ h, slotFactor_of_some hp]
    by_cases hc : 255 < d.acc.toNat * p.toNat
    · simp [hc]
    · simp [hc]

/-- Everything a list of set bits can do: the product, checked once (43_fragment_decoder.md R123). -/
theorem visitSlots_eq (is : List Nat) (d : DecodeState) (h : d.acc.toNat ≤ 255) (h1 : 1 ≤ d.acc.toNat) :
    is.foldlM visitSlot d = if 255 < d.acc.toNat * (is.map slotFactor).prod then .error .accRange
      else .ok ⟨BitVec.ofNat 16 (d.acc.toNat * (is.map slotFactor).prod), d.seen || !is.isEmpty⟩ := by
  induction is generalizing d with
  | nil => simp; rw [if_neg (by omega)]; rfl
  | cons i is ih =>
    have hf := slotFactor_pos i
    have hp : 1 ≤ (is.map slotFactor).prod := List.one_le_prod (by simpa using fun a _ => slotFactor_pos a)
    rw [List.foldlM_cons, visitSlot_eq d i h]
    have hle : d.acc.toNat * slotFactor i ≤ d.acc.toNat * slotFactor i * (is.map slotFactor).prod := Nat.le_mul_of_pos_right _ hp
    have h0 : 1 ≤ d.acc.toNat * slotFactor i := Nat.mul_pos h1 hf
    by_cases hc : 255 < d.acc.toNat * slotFactor i
    · rw [if_pos hc]
      simp only [List.map_cons, List.prod_cons, ← Nat.mul_assoc]
      rw [if_pos (by omega)]; rfl
    · rw [if_neg hc]
      have := ih ⟨BitVec.ofNat 16 (d.acc.toNat * slotFactor i), true⟩ (by simp; omega) (by simp; omega)
      have e : (BitVec.ofNat 16 (d.acc.toNat * slotFactor i)).toNat = d.acc.toNat * slotFactor i := by simp; omega
      simp only [e] at this
      show List.foldlM visitSlot _ is = _
      rw [this]
      simp [Nat.mul_assoc]

/-- The set bits of a fragment at positions 0 to 54. -/
def setSlots (f : Frag) : List Nat := (List.range Config.numSlots).filter fun i => f.getLsbD i

/-- A queue is the list of all its set bits. -/
theorem visitFragments_eq (q : List Frag) (d : DecodeState) :
    q.foldlM visitFragment d = (q.flatMap setSlots).foldlM visitSlot d := by
  induction q generalizing d with
  | nil => rfl
  | cons f q ih =>
    rw [List.flatMap_cons, List.foldlM_append, List.foldlM_cons]
    congr 1
    funext d'; exact ih d'

/-- The product over the positions that satisfy a test. -/
theorem prod_setSlots_range (P : Nat → Bool) (n : Nat) :
    (((List.range n).filter P).map slotFactor).prod = ((List.range n).map fun i => slotFactor i ^ (P i).toNat).prod := by
  induction n with
  | zero => rfl
  | succ n ih => 
    simp [List.range_succ, List.filter_append, ih, List.filter_cons]
    cases P n <;> simp

/-- The product over a queue, by the number of times each bit is set. -/
theorem prod_flatMap_setSlots (q : List Frag) : ((q.flatMap setSlots).map slotFactor).prod = ((List.range 55).map fun i => slotFactor i ^ bitCount q i).prod := by
  induction q with
  | nil => simp [bitCount]
  | cons f q ih =>
    rw [List.flatMap_cons, List.map_append, List.prod_append, ih, setSlots, prod_setSlots_range, ← List.prod_map_mul]
    congr 1
    apply List.map_congr_left
    intro i _
    rw [← Nat.pow_add, bitCount, bitCount, List.countP_cons]
    cases f.getLsbD i <;> simp [Nat.add_comm]

/-- The unity slot adds nothing to the product. -/
theorem prod_slots_eq_primeProduct (c : Nat → Nat) : ((List.range 55).map fun i => slotFactor i ^ c i).prod = primeProduct c := by
  rw [show (55 : Nat) = 54 + 1 from rfl, List.range_succ_eq_map, List.map_cons, List.map_map, List.prod_cons]
  simp [slotFactor, slotPrime, primeProduct]
  rfl

/-- No bit at positions 0 to 54 is set when every count is 0. -/
theorem flatMap_setSlots_eq_nil (q : List Frag) : (q.flatMap setSlots) = [] ↔ ∀ i, i ≤ 54 → bitCount q i = 0 := by
  simp [List.flatMap_eq_nil_iff, setSlots, bitCount, List.filter_eq_nil_iff, Nat.lt_succ_iff]
  exact ⟨fun h i hi f hf => h f hf i hi, fun h f hf i hi => h i hi f hf⟩

/-- Repeated checked multiplication is the power over the naturals (44_text_codec.md R139). -/
theorem mulTimes_eq (p : Byte) (n : Nat) (acc : Acc) (h : acc.toNat ≤ 255) (h1 : 1 ≤ acc.toNat) (hp : 1 ≤ p.toNat) :
    mulTimes p n acc = if 255 < acc.toNat * p.toNat ^ n then .error .accRange
      else .ok (BitVec.ofNat 16 (acc.toNat * p.toNat ^ n)) := by
  induction n generalizing acc with
  | zero => simp [mulTimes]; omega
  | succ n ih =>
    have hpow : 1 ≤ p.toNat ^ n := Nat.one_le_pow _ _ hp
    have hm := mulChecked_eq acc p h
    have h0 : 1 ≤ acc.toNat * p.toNat := Nat.mul_pos h1 hp
    have e : acc.toNat * p.toNat ^ (n + 1) = acc.toNat * p.toNat * p.toNat ^ n := by rw [Nat.pow_succ]; ring
    have hle : acc.toNat * p.toNat ≤ acc.toNat * p.toNat * p.toNat ^ n := Nat.le_mul_of_pos_right _ hpow
    rw [e]
    by_cases hc : 255 < acc.toNat * p.toNat
    · rw [if_pos hc] at hm
      simp only [mulTimes, hm]
      rw [if_pos (by omega)]
    · rw [if_neg hc] at hm
      have e' : (BitVec.ofNat 16 (acc.toNat * p.toNat)).toNat = acc.toNat * p.toNat := by simp; omega
      have := ih (BitVec.ofNat 16 (acc.toNat * p.toNat)) (by omega) (by omega)
      simp only [mulTimes, hm, this, e']

/-- Eight multiplications suffice for any count: a token multiplies by the power over the naturals (44_text_codec.md R139, R141). -/
theorem evalToken_eq (acc : Acc) (t : Token) (h : acc.toNat ≤ 255) (h1 : 1 ≤ acc.toNat) :
    evalToken acc t = if 255 < acc.toNat * slotFactor t.index.val ^ t.count then .error .accRange
      else .ok (BitVec.ofNat 16 (acc.toNat * slotFactor t.index.val ^ t.count)) := by
  unfold evalToken
  split
  · rename_i hp
    rw [slotFactor_of_none hp]
    simp; omega
  · rename_i p hp
    rw [slotFactor_of_some hp]
    have h2 := slotPrime_ge hp
    rw [mulTimes_eq _ _ _ h h1 (by omega)]
    by_cases hc : t.count ≤ 8
    · rw [Nat.min_eq_left hc]
    · have a1 : 2 ^ 8 ≤ p.toNat ^ 8 := Nat.pow_le_pow_left h2 8
      have a2 : p.toNat ^ 8 ≤ p.toNat ^ t.count := Nat.pow_le_pow_right (by omega) (by omega)
      have b1 : p.toNat ^ 8 ≤ acc.toNat * p.toNat ^ 8 := Nat.le_mul_of_pos_left _ h1
      have b2 : p.toNat ^ t.count ≤ acc.toNat * p.toNat ^ t.count := Nat.le_mul_of_pos_left _ h1
      rw [Nat.min_eq_right (by omega), if_pos (by omega), if_pos (by omega)]

/-- A list of tokens multiplies by their product, checked once (44_text_codec.md R139). -/
theorem evalTokens_eq (ts : List Token) (acc : Acc) (h : acc.toNat ≤ 255) (h1 : 1 ≤ acc.toNat) :
    ts.foldlM evalToken acc = if 255 < acc.toNat * tokenProduct ts then .error .accRange
      else .ok (BitVec.ofNat 16 (acc.toNat * tokenProduct ts)) := by
  induction ts generalizing acc with
  | nil => simp [tokenProduct]; rw [if_neg (by omega)]; rfl
  | cons t ts ih =>
    have hf : 1 ≤ slotFactor t.index.val ^ t.count := Nat.one_le_pow _ _ (slotFactor_pos _)
    have hp : 1 ≤ tokenProduct ts := List.one_le_prod (by simpa using fun a _ => Nat.one_le_pow _ _ (slotFactor_pos _))
    have e : tokenProduct (t :: ts) = slotFactor t.index.val ^ t.count * tokenProduct ts := by simp [tokenProduct]
    rw [List.foldlM_cons, evalToken_eq acc t h h1, e, ← Nat.mul_assoc]
    have h0 : 1 ≤ acc.toNat * slotFactor t.index.val ^ t.count := Nat.mul_pos h1 hf
    have hle := Nat.le_mul_of_pos_right (acc.toNat * slotFactor t.index.val ^ t.count) hp
    by_cases hc : 255 < acc.toNat * slotFactor t.index.val ^ t.count
    · rw [if_pos hc, if_pos (by omega)]; rfl
    · rw [if_neg hc]
      have e' : (BitVec.ofNat 16 (acc.toNat * slotFactor t.index.val ^ t.count)).toNat = acc.toNat * slotFactor t.index.val ^ t.count := by simp; omega
      have := ih (BitVec.ofNat 16 (acc.toNat * slotFactor t.index.val ^ t.count)) (by omega) (by omega)
      show List.foldlM evalToken _ ts = _
      rw [this, e']

end Sys2Proof.Machine
end

