-- ==== Sys2Proof/Laws/Text.lean ====
section
/-! SUPPORT. What the text codec's functions do: splitting, numbers, tokens, and the outcomes of looking for a line. -/

namespace Sys2Proof.Machine

/-- There is always a part. -/
theorem splitAtByte_ne_nil (sep : Byte) (l : List Byte) : splitAtByte sep l ≠ [] := by
  cases l with
  | nil => simp [splitAtByte]
  | cons c cs =>
    unfold splitAtByte
    split
    · simp
    · split <;> simp

/-- Joining with a separator, one part at a time. -/
theorem intercalate_sep_cons (sep : Byte) (p : List Byte) {ps : List (List Byte)} (h : ps ≠ []) :
    [sep].intercalate (p :: ps) = p ++ sep :: [sep].intercalate ps := by
  cases ps with
  | nil => exact absurd rfl h
  | cons q qs => simp [List.intercalate_cons_cons]

/-- The parts joined again are the sequence. -/
theorem splitAtByte_intercalate (sep : Byte) (l : List Byte) : [sep].intercalate (splitAtByte sep l) = l := by
  induction l with
  | nil => rfl
  | cons c cs ih =>
    unfold splitAtByte
    by_cases h : c = sep
    · rw [if_pos h, intercalate_sep_cons _ _ (splitAtByte_ne_nil _ _), ih, h]; rfl
    · rw [if_neg h]
      cases hs : splitAtByte sep cs with
      | nil => exact absurd hs (splitAtByte_ne_nil _ _)
      | cons p ps =>
        rw [hs] at ih
        cases ps with
        | nil => simp [List.intercalate] at ih ⊢; exact ih
        | cons q qs =>
          rw [intercalate_sep_cons _ _ (by simp)] at ih ⊢
          simp [ih]

/-- No part holds the separator. -/
theorem splitAtByte_free (sep : Byte) (l : List Byte) : ∀ p ∈ splitAtByte sep l, sep ∉ p := by
  induction l with
  | nil => simp [splitAtByte]
  | cons c cs ih =>
    unfold splitAtByte
    by_cases h : c = sep
    · rw [if_pos h]; simp; exact ih
    · rw [if_neg h]
      cases hs : splitAtByte sep cs with
      | nil => exact absurd hs (splitAtByte_ne_nil _ _)
      | cons p ps =>
        rw [hs] at ih
        simp at ih ⊢
        exact ⟨⟨fun e => h e.symm, ih.1⟩, ih.2⟩

/-- The first part ends at the first separator. -/
theorem splitAtByte_append (sep : Byte) (p l : List Byte) (h : sep ∉ p) :
    splitAtByte sep (p ++ sep :: l) = p :: splitAtByte sep l := by
  induction p with
  | nil => simp [splitAtByte]
  | cons c cs ih =>
    simp at h
    rw [List.cons_append, splitAtByte, if_neg (fun e => h.1 e.symm), ih h.2]

/-- A sequence without the separator is its one part. -/
theorem splitAtByte_of_free (sep : Byte) (p : List Byte) (h : sep ∉ p) : splitAtByte sep p = [p] := by
  induction p with
  | nil => rfl
  | cons c cs ih =>
    simp at h
    rw [splitAtByte, if_neg (fun e => h.1 e.symm), ih h.2]

/-- Parts without the separator, joined, split into themselves. -/
theorem splitAtByte_eq (sep : Byte) (parts : List (List Byte)) (hne : parts ≠ []) (h : ∀ p ∈ parts, sep ∉ p) :
    splitAtByte sep ([sep].intercalate parts) = parts := by
  induction parts with
  | nil => exact absurd rfl hne
  | cons p ps ih =>
    cases ps with
    | nil => simpa using splitAtByte_of_free sep p (h p (by simp))
    | cons q qs =>
      rw [intercalate_sep_cons _ _ (by simp), splitAtByte_append _ _ _ (h p (by simp)), ih (by simp) (fun p hp => h p (by simp [hp]))]

/-- What a digit character is worth. -/
theorem digitValue_eq (c : Byte) (d : Nat) : digitValue c = some d ↔ IsDigit c ∧ d = c.toNat - 0x30 := by
  unfold digitValue IsDigit
  split <;> rename_i h <;> simp [h]
  exact eq_comm

/-- A digit string read on from `acc`. -/
theorem numberFrom_eq (acc n : Nat) (ds : List Byte) :
    numberFrom acc ds = some n ↔ (∀ c ∈ ds, IsDigit c) ∧ ds.foldl (fun n c => 10 * n + (c.toNat - 0x30)) acc = n := by
  induction ds generalizing acc with
  | nil => simp [numberFrom]
  | cons c cs ih =>
    unfold numberFrom
    cases h : digitValue c with
    | some d =>
      obtain ⟨h1, rfl⟩ := (digitValue_eq _ _).1 h
      simp [ih, h1]
    | none =>
      have : ¬ IsDigit c := fun hd => by rw [(digitValue_eq c _).2 ⟨hd, rfl⟩] at h; cases h
      simp [this]

/-- The parser accepts exactly the grammar's numbers (30_encoding.md R86). -/
theorem parseNumber_eq (ds : List Byte) (n : Nat) : parseNumber ds = some n ↔ IsNumber ds n := by
  cases ds with
  | nil => simp [parseNumber, IsNumber]
  | cons c cs => simp only [parseNumber, numberFrom_eq, IsNumber, decimalValue]; simp

/-- A digit is no delimiter and no terminator. -/
theorem IsDigit.ne_marks {c : Byte} (h : IsDigit c) : c ≠ 0x3A ∧ c ≠ 0x3B ∧ c ≠ 0x0A := by
  unfold IsDigit at h
  refine ⟨?_, ?_, ?_⟩ <;> rintro rfl <;> simp at h

/-- The parser accepts exactly the grammar's tokens (30_encoding.md R86). -/
theorem parseToken_eq (bytes : List Byte) (t : Token) : parseToken bytes = some t ↔ IsToken bytes t := by
  constructor
  · intro h
    unfold parseToken at h
    split at h
    · rename_i a b hs
      split at h
      · rename_i m n hm hn
        split at h
        · rename_i i hi
          split at h
          · rename_i hpos
            cases h
            have := splitAtByte_intercalate colon bytes
            rw [hs, intercalate_sep_cons _ _ (by simp)] at this
            refine ⟨a, b, by simpa [colon] using this.symm, ?_, (parseNumber_eq _ _).1 hn, hpos⟩
            rw [slotOf_eq_some] at hi
            have := (parseNumber_eq _ _).1 hm
            rwa [hi] at this
          · cases h
        · cases h
      · cases h
    · cases h
  · rintro ⟨a, b, rfl, ha, hb, hc⟩
    have fa : colon ∉ a := fun hm => (IsDigit.ne_marks (ha.2.1 _ hm)).1 rfl
    have fb : colon ∉ b := fun hm => (IsDigit.ne_marks (hb.2.1 _ hm)).1 rfl
    have : splitAtByte colon (a ++ 0x3A :: b) = [a, b] := by
      rw [show (0x3A : Byte) = colon from rfl, splitAtByte_append _ _ _ fa, splitAtByte_of_free _ _ fb]
    unfold parseToken
    simp only [this, (parseNumber_eq _ _).2 ha, (parseNumber_eq _ _).2 hb]
    rw [slotOf_lt t.index.isLt]
    simp [show 0 < t.count from hc]

/-- The digits written before `tail` are a number of value `n`. -/
theorem decOnto_spec (fuel n : Nat) (tail : List Byte) (h : n < fuel) :
    ∃ ds, decOnto fuel n tail = ds ++ tail ∧ IsNumber ds n := by
  induction fuel generalizing n tail with
  | zero => omega
  | succ fuel ih =>
    have hd : ∀ d, d < 10 → IsDigit (digitChar d) ∧ (digitChar d).toNat - 0x30 = d := by
      intro d hd; unfold IsDigit; interval_cases d <;> decide
    unfold decOnto
    by_cases hn : n < 10
    · rw [if_pos hn]
      refine ⟨[digitChar n], rfl, by simp, by simpa using (hd n hn).1, by simpa [decimalValue] using (hd n hn).2⟩
    · rw [if_neg hn]
      obtain ⟨ds, e, h1, h2, h3⟩ := ih (n / 10) (digitChar (n % 10) :: tail) (by omega)
      have hm := hd (n % 10) (by omega)
      refine ⟨ds ++ [digitChar (n % 10)], by simp [e], by simp, ?_, ?_⟩
      · simp; rintro c (hc | rfl); exacts [h2 c hc, hm.1]
      · simp only [decimalValue, List.foldl_append, List.foldl_cons, List.foldl_nil] at h3 ⊢; rw [h3, hm.2]; omega

/-- `dec n` is a number of value `n` (00_scope.md R10). -/
theorem dec_isNumber (n : Nat) : IsNumber (dec n) n := by
  obtain ⟨ds, e, h⟩ := decOnto_spec (n + 1) n [] (by omega)
  rw [List.append_nil] at e
  rw [dec, e]; exact h

/-- Which tokens the formatter writes (44_text_codec.md R131). -/
theorem nonZeroSlots_mem (k : Nat) (v : List Byte) (i c : Nat) : (i, c) ∈ nonZeroSlots k v ↔ k ≤ i ∧ (v.getD (i - k) 0).toNat = c ∧ 0 < c ∧ i < k + v.length:= by
  induction v generalizing k with
  | nil => simp [nonZeroSlots]; omega
  | cons x xs ih =>
    unfold nonZeroSlots
    have key : (k + 1 ≤ i ∧ (xs.getD (i - (k + 1)) 0).toNat = c ∧ 0 < c ∧ i < k + 1 + xs.length) ↔
      (k ≠ i ∧ k ≤ i ∧ ((x :: xs).getD (i - k) 0).toNat = c ∧ 0 < c ∧ i < k + (x :: xs).length) := by
      by_cases h : k + 1 ≤ i
      · have : i - k = (i - (k+1)) + 1 := by omega
        rw [this]; simp; omega
      · simp; omega
    split
    · rename_i hx
      rw [List.mem_cons, ih, key]
      constructor
      · rintro (h | h)
        · cases h; simp; omega
        · exact h.2
      · intro h
        by_cases e : k = i
        · left; subst e; simp at h; simp [h]
        · right; exact ⟨e, h⟩
    · rename_i hx
      rw [ih, key]
      constructor
      · exact fun h => h.2
      · intro h
        refine ⟨?_, h⟩
        rintro rfl; simp at h; omega

/-- A line before a terminator is found whatever `IST` is (44_text_codec.md R137). -/
theorem takeLine_found (line rest : List Byte) (ist : InputStatus) (h : (0x0A : Byte) ∉ line) :
    takeLine (line ++ 0x0A :: rest) ist = .found line.length := by
  have hn : line.findIdx? isLineTerm = none := by
    rw [List.findIdx?_eq_none_iff]
    intro x hx
    simp only [isLineTerm, beq_eq_false_iff_ne]
    rintro rfl
    exact h hx
  have : (line ++ 0x0A :: rest).findIdx? isLineTerm = some line.length := by
    rw [List.findIdx?_append, hn, List.findIdx?_cons]
    simp [isLineTerm]
  simp only [takeLine, this]

/-- Everything `takeLine` can answer when there is no terminator (44_text_codec.md R137). -/
theorem takeLine_none (ibuf : List Byte) (ist : InputStatus) (h : (0x0A : Byte) ∉ ibuf) :
    takeLine ibuf ist = match ist with
      | .opened => .holds
      | .err => .fails .readFailure
      | .eos => if ibuf = [] then .endOfInput else .fails .readFailure := by
  have hn : ibuf.findIdx? isLineTerm = none := by
    rw [List.findIdx?_eq_none_iff]
    intro x hx
    simp only [isLineTerm, beq_eq_false_iff_ne]
    rintro rfl
    exact h hx
  simp only [takeLine, hn]
  cases ist <;> cases ibuf <;> rfl

/-- An input either has a first terminator or has none. -/
theorem line_or_none (ibuf : List Byte) :
    (∃ line rest, ibuf = line ++ 0x0A :: rest ∧ (0x0A : Byte) ∉ line) ∨ (0x0A : Byte) ∉ ibuf := by
  by_cases h : (0x0A : Byte) ∈ ibuf
  · obtain ⟨line, rest, e, hn⟩ := List.eq_append_cons_of_mem h
    exact .inl ⟨line, rest, e, hn⟩
  · exact .inr h

/-- A byte of a joined list is the separator or a byte of a part. -/
theorem mem_intercalate {sep c : Byte} {parts : List (List Byte)} (h : c ∈ [sep].intercalate parts) :
    c = sep ∨ ∃ p ∈ parts, c ∈ p := by
  induction parts with
  | nil => simp at h
  | cons p ps ih =>
    by_cases e : ps = []
    · subst e
      exact .inr ⟨p, by simp, by simpa using h⟩
    · rw [intercalate_sep_cons sep p e] at h
      rcases List.mem_append.1 h with h | h
      · exact .inr ⟨p, by simp, h⟩
      · rcases List.mem_cons.1 h with h | h
        · exact .inl h
        · rcases ih h with h | ⟨q, hq, hc⟩
          · exact .inl h
          · exact .inr ⟨q, by simp [hq], hc⟩

/-- A byte of a line of the grammar is a digit, `:` or `;` (30_encoding.md R86: "No other byte may occur in a line"). -/
theorem IsLine.byte {line : List Byte} {tokens : List Token} (h : IsLine line tokens) {c : Byte} (hc : c ∈ line) :
    IsDigit c ∨ c = 0x3A ∨ c = 0x3B := by
  rcases h with ⟨rfl, -⟩ | ⟨-, parts, rfl, hp⟩
  · simp at hc
  · rcases mem_intercalate hc with rfl | ⟨p, hm, hc⟩
    · exact .inr (.inr rfl)
    · obtain ⟨t, -, ib, cb, rfl, ⟨-, hi, -⟩, ⟨-, hn, -⟩, -⟩ : ∃ t, t ∈ tokens ∧ IsToken p t := by
        clear * - hm hp
        induction hp with
        | nil => simp at hm
        | cons h _ ih =>
          rcases List.mem_cons.1 hm with rfl | hm
          · exact ⟨_, by simp, h⟩
          · obtain ⟨t, ht, h⟩ := ih hm
            exact ⟨t, by simp [ht], h⟩
      rcases List.mem_append.1 hc with hc | hc
      · exact .inl (hi c hc)
      · rcases List.mem_cons.1 hc with rfl | hc
        · exact .inr (.inl rfl)
        · exact .inl (hn c hc)

end Sys2Proof.Machine
end

