-- ==== Sys2Proof/Tests/Slice0.lean ====
section
/-! SUPPORT. The model's own tests: words, values and bytes are those of the spec's tables (30_encoding.md R79, 95_test_vectors.md,
the corner cases of R144, R160, R171, R201), never the model's answers; and for every statement with hypotheses a concrete state and
operands that meet them, clause by clause. -/

open Sys2Proof Sys2Proof.Machine

namespace Sys2Proof.Tests

set_option Elab.async false -- one kernel evaluation at a time

/-- The next state of an outcome, if it is one. -/
def nextOf (r : Result) : Option State :=
  match r with
  | .next t => some t
  | .fault _ => none
  | .refused _ => none

/-- The refusal of an outcome, if it is one. -/
def refusalOf (r : Result) : Option Refusal :=
  match r with
  | .next _ => none
  | .fault _ => none
  | .refused e => some e

/-- The fault of an outcome, if it is one. -/
def faultOf (r : Result) : Option Fault :=
  match r with
  | .next _ => none
  | .fault e => some e
  | .refused _ => none

/-- The exponent vector of byte 12 (95_test_vectors.md S7). -/
def ev12 : ExpVec := (zeroVec.set 1 2).set 2 1

/-- The line of byte 12 with its terminator (30_encoding.md R90). -/
def line12 : List Byte := [0x31, 0x3A, 0x32, 0x3B, 0x32, 0x3A, 0x31, 0x0A]

/-- The record of byte 12 (30_encoding.md R90). -/
def record12 : List Byte := [0x02, 0x06, 0, 0, 0, 0, 0, 0, 0, 0x02, 0, 0, 0, 0, 0, 0, 0]

/-! ### Decoding (30_encoding.md R79; 95_test_vectors.md 2.6) -/

theorem test_decode_nop : decodeTableWord 72 0x000000000000000000 = some .nop := by decide
theorem test_decode_ldb : decodeTableWord 72 0x00000000000000FF01 = some (.ldb 255) := by decide
theorem test_decode_ldev : decodeTableWord 72 0x000000000000FF3602 = some (.ldev 54 255) := by decide
theorem test_decode_pushf : decodeTableWord 72 0xFFFFFFFFFFFFFFFF03 = some (.pushf 0xFFFFFFFFFFFFFFFF) := by decide
theorem test_decode_pushf_bit54 : decodeTableWord 72 0x004000000000000003 = some (.pushf 0x0040000000000000) := by decide
theorem test_decode_clrf : decodeTableWord 72 0x000000000000000004 = some .clrf := by decide
theorem test_decode_fact : decodeTableWord 72 0x000000000000000005 = some .fact := by decide
theorem test_decode_fenc : decodeTableWord 72 0x000000000000000006 = some .fenc := by decide
theorem test_decode_fdec : decodeTableWord 72 0x000000000000000007 = some .fdec := by decide
theorem test_decode_tfmt : decodeTableWord 72 0x000000000000000008 = some .tfmt := by decide
theorem test_decode_tprs : decodeTableWord 72 0x000000000000000009 = some .tprs := by decide
theorem test_decode_bfmt : decodeTableWord 72 0x00000000000000000A = some .bfmt := by decide
theorem test_decode_bprs : decodeTableWord 72 0x00000000000000000B = some .bprs := by decide
theorem test_decode_mbz_b : decode 0x000000000000010001 = .error .nonZeroMbz := by rfl
theorem test_decode_mbz_s : decode 0x000000000001000002 = .error .nonZeroMbz := by rfl
theorem test_decode_mbz_n : decode 0x800000000000000000 = .error .nonZeroMbz := by rfl
theorem test_decode_reserved_first : decode 0x00000000000000000C = .error .reservedOpcode := by rfl
theorem test_decode_reserved_last : decode 0x0000000000000000FF = .error .reservedOpcode := by rfl
theorem test_encode_ldev : encode (.ldev 1 200) = 0x000000000000C80102 := by decide

/-- The mbz check comes before the operand range (30_encoding.md R76). -/
theorem test_mbz_before_range :
    (nextOf (issueWord 0x000000000001003702 State.reset)).map (·.err) = some (some .illegalCommand) := by decide

/-- Well-formedness refuses the one ill-formed operand there is, slot 55, and takes slot 54 (46_host_commands.md R167). -/
theorem test_wellFormed_ldev : Instr.wellFormed (.ldev 55 1) = false ∧ Instr.wellFormed (.ldev 54 1) = true := by decide

/-- A step runs a presented word from reset (95_test_vectors.md P1, command 1). -/
theorem test_step_from_reset :
    nextOf (step (State.reset.withFetchWord 72 0x000000000000000C01)) = some { State.reset with b := 12 } := by decide

/-- The same command as a function of the block and the word alone (00_scope.md R14). -/
theorem test_blockStep : (nextOf (blockStep 0x000000000000000C01 Block.reset)).map (·.toBlock) =
    some { Block.reset with b := 12 } := by decide

/-- The reset state is the start of the run of the empty list (00_scope.md R15). -/
theorem test_startRun : startRun [] = State.reset := by decide

/-- The expansion of `ENCB 12` is the four words of 95_test_vectors.md P1. -/
theorem test_pseudo_encb : presentAll (expandPseudo (.encb 12)) =
    [.command 0x000000000000000C01, .command 0x000000000000000005, .command 0x000000000000000006,
     .command 0x00000000000000000A] := by decide

/-! ### One step of each command -/

/-- 95_test_vectors.md P5: NOP on a faulted block is refused, that is, changes nothing. -/
theorem test_nop_faulted :
    nextOf (exec .nop { State.reset with err := some .accRange }) = some { State.reset with err := some .accRange } := by decide

theorem test_nop : nextOf (exec .nop State.reset) = some State.reset := by decide

/-- 46_host_commands.md R171. -/
theorem test_ldb : nextOf (exec (.ldb 255) State.reset) = some { State.reset with b := 255 } := by decide

/-- 46_host_commands.md R171: slot 0 is legal, and the other slots stay. -/
theorem test_ldev : nextOf (exec (.ldev 0 255) { State.reset with ev := ev12 }) =
    some { State.reset with ev := ev12.set 0 255 } := by decide

/-- 46_host_commands.md R171. -/
theorem test_ldev_range :
    nextOf (exec (.ldev 55 0) State.reset) = some { State.reset with err := some .illegalOperand } := by decide

/-- 46_host_commands.md R171: the 255th fragment fits. -/
theorem test_pushf_last : (nextOf (exec (.pushf 0) { State.reset with fq := List.replicate 254 7 })).map
    (fun t => (t.fq.length, t.fq[254]?, t.err)) = some (255, some 0, none) := by decide +kernel

/-- 46_host_commands.md R171: the 256th does not. -/
theorem test_pushf_full : (nextOf (exec (.pushf 0) { State.reset with fq := List.replicate 255 7 })).map
    (fun t => (t.fq.length, t.err)) = some (255, some .queueOverflow) := by decide +kernel

theorem test_clrf : nextOf (exec .clrf { State.reset with fq := [0x6, 0x2] }) = some State.reset := by decide

/-- 95_test_vectors.md S7. -/
theorem test_fact_12 : nextOf (exec .fact { State.reset with b := 12 }) = some { State.reset with b := 12, ev := ev12 } := by
  decide +kernel

/-- 95_test_vectors.md 2.1: 254 is `2 * 127`, slots 1 and 31. -/
theorem test_fact_254 : (nextOf (exec .fact { State.reset with b := 254, ev := ev12 })).map (·.ev) =
    some ((zeroVec.set 1 1).set 31 1) := by decide +kernel

/-- 95_test_vectors.md S8; the vector is consumed (42_fragment_encoder.md R111). -/
theorem test_fenc_12 : nextOf (exec .fenc { State.reset with ev := ev12, fq := [0x8] }) =
    some { State.reset with fq := [0x6, 0x2] } := by decide +kernel

/-- 95_test_vectors.md 2.2: slot 54 is bit 54. -/
theorem test_fenc_251 : (nextOf (exec .fenc { State.reset with ev := zeroVec.set 54 1 })).map (·.fq) =
    some [0x0040000000000000] := by decide +kernel

/-- 95_test_vectors.md 2.3: the unity bit adds nothing. -/
theorem test_fdec_72 : (nextOf (exec .fdec { State.reset with fq := [0x7, 0x6, 0x2] })).map (·.b) = some 72 := by decide +kernel

/-- 95_test_vectors.md P5: eight times 2. -/
theorem test_fdec_range : nextOf (exec .fdec { State.reset with fq := List.replicate 8 0x2, b := 9 }) =
    some { State.reset with fq := List.replicate 8 0x2, b := 9, err := some .accRange } := by decide +kernel

/-- 95_test_vectors.md P7: `1:200`. -/
theorem test_tfmt_200 : (nextOf (exec .tfmt { State.reset with ev := zeroVec.set 1 200, obuf := [0x0A] })).map (·.obuf) =
    some [0x0A, 0x31, 0x3A, 0x32, 0x30, 0x30, 0x0A] := by decide +kernel

/-- 95_test_vectors.md 2.4: byte 251 is `54:1`. -/
theorem test_tfmt_251 : (nextOf (exec .tfmt { State.reset with ev := zeroVec.set 54 1 })).map (·.obuf) =
    some [0x35, 0x34, 0x3A, 0x31, 0x0A] := by decide +kernel

/-- 44_text_codec.md R144: `01:002;2:1`, leading zeros; the next line stays. -/
theorem test_tprs_zeros : nextOf (exec .tprs { State.reset with eos := true, ibuf :=
      [0x30, 0x31, 0x3A, 0x30, 0x30, 0x32, 0x3B, 0x32, 0x3A, 0x31, 0x0A, 0x0A] }) =
    some { State.reset with b := 12, ibuf := [0x0A] } := by decide +kernel

/-- 44_text_codec.md R142: `1:9;x` is `Corruption`, not `AccRange`. -/
theorem test_tprs_order :
    (nextOf (exec .tprs { State.reset with ibuf := [0x31, 0x3A, 0x39, 0x3B, 0x78, 0x0A] })).map (·.err) =
    some (some .corruption) := by decide +kernel

/-- 95_test_vectors.md 2.5. -/
theorem test_bfmt : (nextOf (exec .bfmt { State.reset with fq := [0x7, 0x6, 0x2] })).map (·.obuf) =
    some [0x03, 0x07, 0, 0, 0, 0, 0, 0, 0, 0x06, 0, 0, 0, 0, 0, 0, 0, 0x02, 0, 0, 0, 0, 0, 0, 0] := by decide +kernel

/-- 45_binary_codec.md R160: bits 55 to 63 are kept, and byte 7 of the field is bits 63:56. -/
theorem test_bprs : nextOf (exec .bprs { State.reset with ibuf := [0x01, 0x02, 0, 0, 0, 0, 0, 0, 0xFF, 0x01], ist := .eos }) =
    some { State.reset with fq := [0xFF00000000000002], ibuf := [0x01], ist := .eos } := by decide +kernel

/-- 95_test_vectors.md P6: 13 of 17 bytes. -/
theorem test_bprs_truncated :
    (nextOf (exec .bprs { State.reset with ibuf := record12.take 13, ist := .eos })).map (·.err) =
    some (some .corruption) := by decide +kernel

/-! ### Holds, the host, reset -/

/-- 95_test_vectors.md P6 with `IST = OPEN`: the command holds while one byte is missing, and the append completes it. -/
theorem test_hold_lifted :
    nextOf (step { State.reset with script := [.append 0x00], held := some .bprs, ibuf := record12.take 16 }) =
    some { State.reset with fq := [0x6, 0x2] } := by decide +kernel

theorem test_hold_forever : faultOf (step { State.reset with held := some .tprs }) = some .holdNeverLifted := by decide

theorem test_hold_refuses_command :
    refusalOf (step { State.reset with held := some .tprs, script := [.command 0] }) = some .moveDuringHold := by decide

/-- 10_state.md R35: a reserved number and an absent fragment are refused, also from a step. -/
theorem test_read_refused :
    refusalOf (step { State.reset with script := [.readReg 0x003] }) = some .noSuchRegister ∧
    refusalOf (step { State.reset with script := [.readReg 0x100] }) = some .noSuchRegister := by decide

/-- 10_state.md R34: `PT[53]` is 251, and `STATUS` of a faulted block can be read. -/
theorem test_read : readRegister 0x0B5 State.reset = some 251 ∧
    readRegister 0x000 { State.reset with err := some .accRange, eos := true } = some 0x14 := by decide +kernel

/-- 70_reset_and_hazards.md R210. -/
theorem test_reset_step :
    nextOf (step { State.reset with err := some .corruption, obuf := [1], ist := .err, script := [.assertReset, .endInput] }) =
    some { State.reset with script := [.endInput] } := by decide

/-- 00_scope.md R14: with nothing presented there is no step. -/
theorem test_nothing_presented : refusalOf (step State.reset) = some .noCommandPresented := by decide

/-- 70_reset_and_hazards.md R219: a text line read as a record. -/
theorem test_mixed_formats :
    (nextOf (exec .bprs { State.reset with ibuf := [0x31, 0x3A, 0x31, 0x0A], ist := .eos })).map (·.err) =
    some (some .corruption) := by decide +kernel

/-! ### The hypotheses of every statement are met -/

/-- The slots of `ev12` as the statements give them. -/
theorem ev12_slots : ∀ i, slotValue ev12 i = if i = 1 then 2 else if i = 2 then 1 else 0 :=
  slotValue_eq_of (by decide) (fun i h => by rw [if_neg (by omega), if_neg (by omega)])

/-- The zero vector's slots. -/
theorem zeroVec_slots : ∀ i, slotValue zeroVec i = 0 := slotValue_eq_of (by decide) (fun _ _ => rfl)

/-- A number of digits given by its bytes. -/
theorem isNumber_of {ds : List Byte} {n : Nat} (h : parseNumber ds = some n) : IsNumber ds n := (parseNumber_eq ds n).1 h

/-- `1:7` is a line of the grammar, with one token. -/
theorem line_1_7 : IsLine [0x31, 0x3A, 0x37] [⟨1, 7⟩] :=
  .inr ⟨by simp, [[0x31, 0x3A, 0x37]], by decide,
    .cons ⟨[0x31], [0x37], rfl, isNumber_of (by decide), isNumber_of (by decide), by decide⟩ .nil⟩

/-- `1:8` is a line of the grammar, of value 256. -/
theorem line_1_8 : IsLine [0x31, 0x3A, 0x38] [⟨1, 8⟩] :=
  .inr ⟨by simp, [[0x31, 0x3A, 0x38]], by decide,
    .cons ⟨[0x31], [0x38], rfl, isNumber_of (by decide), isNumber_of (by decide), by decide⟩ .nil⟩

/-- `x` is no line of the grammar. -/
theorem line_x : ¬ ∃ tokens, IsLine [0x78] tokens := by
  rintro ⟨tokens, h⟩
  rcases h.byte (c := 0x78) (by simp) with h | h | h
  · exact absurd h.2 (by decide)
  · exact absurd h (by decide)
  · exact absurd h (by decide)

theorem witness_DecodeThenEncode : decode 0x00000000000000FF01 = .ok (.ldb 255) := by rfl

theorem witness_WordSelectsAtMostOneRow :
    ((opcodeField 0x000000000000010001).toNat ≤ 0x0B ∧ mbzBits 0x000000000000010001 ≠ 0 ∧ State.reset.err = none) ∧
    ((opcodeField 0x80000000000000000B).toNat ≤ 0x0B ∧ mbzBits 0x80000000000000000B ≠ 0) ∧
    (∃ r ∈ opcodeTable, r.selects 0x00000000000000000B = true ∧ r.mnemonic = "BPRS") ∧
    (∀ r ∈ opcodeTable, r.selects 0x000000000000000105 = false) := by decide

theorem witness_ReservedOpcodesRaise :
    0x0C ≤ (opcodeField 0x00000000000000000C).toNat ∧ 0x0C ≤ (opcodeField 0x0000000000000001FF).toNat ∧
    State.reset.err = none := by decide

theorem witness_DecodingIsTotalAndOrdered :
    decode 0x000000000000003702 = .ok (.ldev 55 0) ∧ 54 < (55 : Byte).toNat ∧ State.reset.err = none ∧
    decode 0x0000000000000000FF = .error .reservedOpcode ∧ decode 0x000000000001003702 = .error .nonZeroMbz :=
  ⟨rfl, by decide, rfl, rfl, rfl⟩

/-- Every statement over live blocks: the reset state is one; and there are faulted ones. -/
theorem witness_live : State.reset.err = none ∧ ({ State.reset with err := some .corruption } : State).err ≠ none := by decide

/-- The hypotheses of `EncodedAs` for each opcode of format N: a word with its must-be-zero bits clear, and one with `cmd[8]` set
(30_encoding.md R79 for FACT). -/
theorem witness_EncodedAs : ∀ op ∈ [0x00, 0x04, 0x05, 0x06, 0x07, 0x08, 0x09, 0x0A, 0x0B],
    opcodeField (BitVec.ofNat 72 op) = BitVec.ofNat 8 op ∧ mbzBits (BitVec.ofNat 72 op) = 0 ∧
    opcodeField (BitVec.ofNat 72 (0x100 + op)) = BitVec.ofNat 8 op ∧ mbzBits (BitVec.ofNat 72 (0x100 + op)) ≠ 0 := by decide

theorem witness_LdbWritesB :
    opcodeField 0x000000000000000C01 = 0x01 ∧ mbzBits 0x000000000000000C01 = 0 ∧ opcodeField 0x000000000000010001 = 0x01 ∧
    mbzBits 0x000000000000010001 ≠ 0 ∧ State.reset.err = none := by decide

theorem witness_LdevWritesOneSlot :
    opcodeField 0x000000000000FF3602 = 0x02 ∧ mbzBits 0x000000000000FF3602 = 0 ∧ mbzBits 0x000000000001000002 ≠ 0 ∧
    54 < (55 : Byte).toNat ∧ (54 : Byte).toNat ≤ 54 ∧ State.reset.err = none := by decide

theorem witness_PushfAppends :
    opcodeField 0xFFFFFFFFFFFFFFFF03 = 0x03 ∧ (List.replicate 255 (7 : Frag)).length = 255 ∧
    (List.replicate 254 (7 : Frag)).length < 255 ∧ State.reset.err = none ∧ State.reset.fq = [] := by decide +kernel

theorem witness_ClrfEmptiesTheQueue : State.reset.err = none ∧ State.reset.fq = [] := by decide

theorem witness_FactWritesTheVector :
    State.reset.err = none ∧ ({ State.reset with b := 12 } : State).b = 12 := by decide

theorem witness_VectorIsTheFactorization :
    factorize 12 = .ok ev12 ∧ 2 ≤ (12 : Byte).toNat ∧ factorize 0 = .ok zeroVec ∧ factorize 1 = .ok (zeroVec.set 0 1) := by
  decide +kernel

theorem witness_VectorRanges :
    factorize 128 = .ok (zeroVec.set 1 7) ∧
    factorize 210 = .ok ((((zeroVec.set 1 1).set 2 1).set 3 1).set 4 1) := by decide +kernel

theorem witness_FactorResidueIsUnreachable :
    2 ≤ (2 : Byte).toNat ∧ 2 ≤ (255 : Byte).toNat ∧ State.reset.err = none ∧
    nextOf (exec .fact { State.reset with b := 255 }) ≠ none := by decide +kernel

theorem witness_FencQueuesTheFragments :
    ∀ i, slotValue ({ State.reset with ev := ev12 } : State).ev i = if i = 1 then 2 else if i = 2 then 1 else 0 := ev12_slots

theorem witness_FragmentBitsCountTheSlots :
    (toFragments ev12)[0]? = some 0x6 ∧ (toFragments ev12)[1]? = some 0x2 ∧ (toFragments ev12).getLast? = some 0x2 ∧
    (0x2 : Frag).getLsbD 1 = true ∧ (toFragments zeroVec).getLast? = some 0 := by decide +kernel

theorem witness_FactorizedBytesTakeOneToSevenFragments :
    factorize 128 = .ok (zeroVec.set 1 7) ∧ factorize 2 = .ok (zeroVec.set 1 1) ∧ Squarefree (2 : Byte).toNat :=
  ⟨by decide +kernel, by decide +kernel, Nat.prime_two.prime.irreducible.squarefree⟩

theorem witness_FdecWritesTheProduct :
    255 < primeProduct (bitCount (List.replicate 8 0x2)) ∧
    primeProduct (bitCount [0x8C]) ≤ 255 ∧ bitCount [0x8C] 7 ≠ 0 ∧
    (∀ i, i ≤ 54 → bitCount [0x0080000000000000] i = 0) ∧ State.reset.err = none := by decide +kernel

theorem witness_DecodingIsTheProductInAnyOrder :
    255 < primeProduct (bitCount [0x0040000000000002]) ∧
    (primeProduct (bitCount [0x1]) ≤ 255 ∧ bitCount [0x1] 0 ≠ 0) ∧ (∀ i, i ≤ 54 → bitCount [] i = 0) ∧
    [(0x6 : Frag), 0x2].Perm [0x2, 0x6] ∧ 1 ≤ (255 : Acc).toNat ∧ (255 : Acc).toNat ≤ 255 ∧ [1, 2].Perm [2, 1] := by
  decide +kernel

theorem witness_CheckedProductNeverWraps :
    1 ≤ (255 : Acc).toNat ∧ (255 : Acc).toNat ≤ 255 ∧ (251 : Byte) ∈ primeTable ∧ 255 < (255 : Acc).toNat * (251 : Byte).toNat ∧
    1 ≤ (127 : Acc).toNat ∧ (2 : Byte) ∈ primeTable ∧ (127 : Acc).toNat * (2 : Byte).toNat ≤ 255 := by decide

theorem witness_HighFragmentBitsMeanNothing :
    (0x6 : Frag) ∈ toFragments ev12 ∧ 55 ≤ 63 ∧ State.reset.fq.length < 255 ∧
    record12 = BitVec.ofNat 8 [(0x6 : Frag), 0x2].length :: [(0x6 : Frag), 0x2].flatMap le8 ++ [] := by decide +kernel

theorem witness_TfmtAppendsTheLine :
    opcodeField 0x000000000000000008 = 0x08 ∧
    ∀ i, slotValue ({ State.reset with ev := ev12 } : State).ev i = if i = 1 then 2 else if i = 2 then 1 else 0 :=
  ⟨by decide, ev12_slots⟩

theorem witness_FormattedLineLength :
    factorize 210 = .ok ((((zeroVec.set 1 1).set 2 1).set 3 1).set 4 1) := by decide +kernel

theorem witness_ParserAcceptsTheGrammar : IsLine [0x31, 0x3A, 0x37] [⟨1, 7⟩] ∧ ¬ ∃ tokens, IsLine [0x78] tokens :=
  ⟨line_1_7, line_x⟩

theorem witness_LineValueIsTheProduct :
    255 < tokenProduct [⟨1, 8⟩] ∧ tokenProduct [⟨1, 7⟩] ≤ 255 ∧ [(⟨1, 7⟩ : Token), ⟨0, 1⟩].Perm [⟨0, 1⟩, ⟨1, 7⟩] := by
  decide +kernel

theorem witness_UnityTokensContributeNothing : [(⟨1, 1⟩ : Token)] ≠ [] ∧ lineByte [] = .ok 0 := by decide

theorem witness_TprsReadsOneLine :
    (opcodeField 0x000000000000000009 = 0x09 ∧ mbzBits 0x000000000000000009 = 0 ∧ mbzBits 0x000000000000000109 ≠ 0) ∧
    (∃ rest, ([0x0A, 0x31] : List Byte) = [] ++ 0x0A :: rest) ∧
    (IsLine [0x31, 0x3A, 0x37] [⟨1, 7⟩] ∧ tokenProduct [⟨1, 7⟩] ≤ 255 ∧ (0x0A : Byte) ∉ [(0x31 : Byte), 0x3A, 0x37]) ∧
    (IsLine [0x31, 0x3A, 0x38] [⟨1, 8⟩] ∧ 255 < tokenProduct [⟨1, 8⟩] ∧ (0x0A : Byte) ∉ [(0x31 : Byte), 0x3A, 0x38]) ∧
    (¬ ∃ tokens, IsLine [0x78] tokens) ∧ (0x0A : Byte) ∉ [(0x78 : Byte)] :=
  ⟨by decide, ⟨[0x31], rfl⟩, ⟨line_1_7, by decide +kernel, by decide⟩, ⟨line_1_8, by decide +kernel, by decide⟩, line_x, by decide⟩

/-- Each row of R137's table, the empty and the one-byte input. -/
theorem witness_TprsInputTable :
    line12 = line12.take 7 ++ 0x0A :: [] ∧ (0x0A : Byte) ∉ line12.take 7 ∧
    ({ State.reset with ist := .eos } : State).ibuf = [] ∧ ({ State.reset with ist := .err } : State).ibuf = [] ∧
    ([0x31] : List Byte) ≠ [] ∧ (0x0A : Byte) ∉ [(0x31 : Byte)] ∧ (0x0A : Byte) ∉ State.reset.ibuf ∧
    State.reset.ist = .opened ∧ State.reset.err = none := by decide

theorem witness_TprsChecksInOrder :
    ((0x0A : Byte) ∉ [(0x31 : Byte)] ∧ ({ State.reset with ibuf := [0x31], ist := .eos } : State).ist ≠ .opened) ∧
    parseLine [0x31, 0x3A, 0x39, 0x3B, 0x78] = .error .corruption ∧
    (parseLine [0x31, 0x3A, 0x38] = .ok [⟨1, 8⟩] ∧ evalLine [⟨1, 8⟩] = .error .accRange) := by decide +kernel

theorem witness_BfmtAppendsTheRecord :
    opcodeField 0x00000000000000000A = 0x0A ∧ ({ State.reset with fq := List.replicate 255 7 } : State).fq.length ≤ 255 ∧
    State.reset.err = none := by decide +kernel

theorem witness_FragmentFieldBytes :
    (le8 0x0040000000000000)[6]? = some 0x40 ∧ (le8 0xFF)[0]? = some 0xFF ∧ ([1, 2, 3, 4, 5, 6, 7, 8] : List Byte).length = 8 := by
  decide +kernel

/-- The empty record and a record of two fragments. -/
theorem witness_BprsReadsOneRecord :
    (([0x00] : List Byte) = 0x00 :: [] ++ [] ∧ ([] : List Byte).length = 8 * (0x00 : Byte).toNat) ∧
    (record12 = 0x02 :: record12.drop 1 ++ [] ∧ (record12.drop 1).length = 8 * (0x02 : Byte).toNat) ∧
    State.reset.err = none := by decide

/-- Where R155's rows meet: one byte short, and exactly enough. -/
theorem witness_BprsInputTable :
    1 + 8 * (0x02 : Byte).toNat ≤ record12.length ∧ record12.take 16 = 0x02 :: (record12.drop 1).take 15 ∧
    (record12.take 16).length < 1 + 8 * (0x02 : Byte).toNat ∧ 1 + 8 * (0x00 : Byte).toNat ≤ ([0x00] : List Byte).length ∧
    State.reset.ibuf = [] ∧ State.reset.ist = .opened := by decide

theorem witness_RecordRestoresTheQueue : (List.replicate 255 (7 : Frag)).length ≤ 255 := by decide +kernel

theorem witness_BinaryWireRoundTrip : State.reset.err = none ∧ State.reset.fq.length ≤ 255 := by decide

theorem witness_FaultEntryIsPreciseAndFinal :
    (nextOf (exec (.ldev 55 1) State.reset)).map (·.err) = some (some .illegalOperand) ∧
    (nextOf (issueWord 0x00000000000000000C State.reset)).map (·.err) = some (some .illegalCommand) ∧
    ({ State.reset with err := some .accRange } : State).err ≠ none := by decide

/-- 60_exceptions.md R201: one example for each cause a command raises. -/
theorem witness_CausesAndTheirCommands :
    (nextOf (exec (.ldev 55 1) State.reset)).map (·.err) = some (some .illegalOperand) ∧
    (nextOf (exec .tprs { State.reset with ibuf := [0x31, 0x3A, 0x38, 0x0A] })).map (·.err) = some (some .accRange) ∧
    (nextOf (exec .tprs { State.reset with ibuf := [0x31, 0x3A, 0x32], ist := .eos })).map (·.err) = some (some .readFailure) ∧
    (nextOf (exec .bprs { State.reset with ist := .err })).map (·.err) = some (some .readFailure) ∧
    (nextOf (exec .bprs { State.reset with ibuf := [0x01], ist := .eos })).map (·.err) = some (some .corruption) ∧
    (nextOf (exec .tprs { State.reset with ibuf := [0x31, 0x3A, 0x32, 0x3B, 0x0A] })).map (·.err) = some (some .corruption) := by
  decide +kernel

theorem witness_ErrStaysUntilReset :
    (nextOf (step { State.reset with err := some .accRange, script := [.command 0] })).map (·.err) = some (some .accRange) ∧
    (nextOf (step { State.reset with err := some .accRange, script := [.assertReset] })).map (·.err) = some none := by decide

theorem witness_EosIsWrittenByParseCommandsOnly :
    nextOf (exec (.ldb 1) { State.reset with eos := true }) = some { State.reset with eos := true, b := 1 } ∧
    nextOf (exec (parseInstr .tprs) { State.reset with ist := .eos }) = some { State.reset with ist := .eos, eos := true } ∧
    nextOf (exec (parseInstr .bprs) { State.reset with ibuf := [0x00], eos := true }) = some State.reset ∧
    (nextOf (exec (parseInstr .bprs) { State.reset with ist := .err, eos := true })).map (·.err) = some (some .readFailure) := by
  decide +kernel

/-- 45_binary_codec.md R160 and 95_test_vectors.md P6: the holds of the empty input and of an input one byte short. -/
theorem witness_HoldsExactlyOnOpenIncompleteInput :
    nextOf (exec .tprs State.reset) = some { State.reset with held := some .tprs } ∧
    nextOf (exec .bprs { State.reset with ibuf := record12.take 16 }) =
      some { State.reset with ibuf := record12.take 16, held := some .bprs } ∧
    (0x0A : Byte) ∉ State.reset.ibuf ∧ State.reset.held = none := by decide +kernel

/-- Each move of the host during a hold. -/
theorem witness_HostLiftsAHold :
    (nextOf (step { State.reset with held := some .tprs, script := [.append 0x0A] })).map (·.held) = some none ∧
    (nextOf (step { State.reset with held := some .tprs, script := [.endInput] })).map (·.eos) = some true ∧
    (nextOf (step { State.reset with held := some .tprs, script := [.failInput] })).map (·.err) = some (some .readFailure) ∧
    refusalOf (step { State.reset with held := some .tprs, script := [.drain 0] }) = some .moveDuringHold ∧
    faultOf (step { State.reset with held := some .bprs }) = some .holdNeverLifted := by decide +kernel

theorem witness_StepRunsThePresentedCommand :
    ({ State.reset with script := [.command 0x000000000000000C01] } : State).held = none ∧
    decode 0x000000000000000C01 = .ok (.ldb 12) ∧ decode 0x00000000000000000C = .error .reservedOpcode :=
  ⟨rfl, rfl, rfl⟩

/-- Each move of the host between commands. -/
theorem witness_HostMovesBetweenCommands :
    nextOf (step { State.reset with script := [.append 7] }) = some { State.reset with ibuf := [7] } ∧
    nextOf (step { State.reset with script := [.endInput] }) = some { State.reset with ist := .eos } ∧
    nextOf (step { State.reset with script := [.failInput] }) = some { State.reset with ist := .err } ∧
    refusalOf (step { State.reset with ist := .eos, script := [.append 7] }) = some .inputNotOpen ∧
    nextOf (step { State.reset with obuf := [1, 2], script := [.drain 1] }) = some { State.reset with obuf := [2] } ∧
    readRegister 0x076 State.reset = some 0 ∧ readRegister 0x077 State.reset = none := by decide +kernel

/-- The ends of each range of register numbers. -/
theorem witness_ReadPortMap :
    readRegister 0x076 { State.reset with ev := zeroVec.set 54 9 } = some 9 ∧
    readRegister 0x080 State.reset = some 2 ∧
    readRegister 0x1FE { State.reset with fq := List.replicate 255 7 } = some 7 ∧
    readRegister 0x1FE { State.reset with fq := List.replicate 254 7 } = none ∧
    readRegister 0x1FF { State.reset with fq := List.replicate 255 7 } = none ∧
    readRegister 0x03F State.reset = none ∧ readRegister 0x0B6 State.reset = none := by decide +kernel

theorem witness_StatusLayout : 5 ≤ 63 ∧ ({ State.reset with err := some .queueOverflow } : State).err = some .queueOverflow := by
  decide

theorem witness_ResetRestoresEverything :
    ({ State.reset with err := some .corruption, script := [.assertReset] } : State).held = none ∧
    nextOf (step { State.reset with err := some .corruption, b := 3, script := [.assertReset] }) = some State.reset := by decide

/-- The invariant is met with nothing holding, and with a command holding. -/
theorem witness_StepKeepsTheInvariant :
    State.Inv { State.reset with script := [.command 0x000000000000000009] } ∧
    State.Inv { State.reset with held := some .tprs, script := [.append 0x0A] } :=
  ⟨⟨by decide, trivial⟩, ⟨by decide, rfl, by decide⟩⟩

theorem witness_OutputIsNeverTakenBack :
    (nextOf (issueWord 0x00000000000000000A { State.reset with obuf := [1] })).map (·.obuf) = some [1, 0] ∧
    (nextOf (issueWord 0x00000000000000000C { State.reset with obuf := [1] })).map (·.obuf) = some [1] ∧
    (nextOf (step { State.reset with obuf := [1, 2], script := [.drain 1] })).map (·.obuf) = some [2] := by decide +kernel

theorem witness_CommandsTouchOnlyTheirState :
    nextOf (exec .tfmt State.reset) = some { State.reset with obuf := [0x0A] } ∧ State.reset.err = none := by decide +kernel

theorem witness_DataPathsKeepNoCrossByteState :
    (nextOf (exec .fact { State.reset with b := 12 })).map (·.ev) = some ev12 ∧
    (nextOf (exec .fact { State.reset with b := 12, fq := [1] })).map (·.ev) = some ev12 ∧
    (0x0A : Byte) ∈ line12 ∧ takeRecord record12 .opened = .found 2 := by decide +kernel

theorem witness_EndOfInputDeliversNothing :
    ({ State.reset with ist := .eos, fq := [0x1] } : State).ibuf = [] ∧ toByte [0x1] = .ok 1 := by decide +kernel

end Sys2Proof.Tests
end

section
/-! The word of a command decodes to the command (30_encoding.md R70 to R73), and so does the word the host presents. -/

namespace Sys2Proof

/-- The word of LDB decodes to it: format B's byte stands at `cmd[15:8]` and nothing above it (30_encoding.md R71). -/
theorem decode_encode_ldb (imm8 : Byte) : decode (encode (.ldb imm8)) = .ok (.ldb imm8) := by
  have hw := encode_ldb_toNat imm8
  have hb := imm8.isLt
  have opcode : (opcodeField (encode (.ldb imm8))).toNat = 1 := by rw [opcodeField_toNat]; omega
  have operand : lowByteField (encode (.ldb imm8)) = imm8 := by
    apply BitVec.eq_of_toNat_eq; rw [lowByteField_toNat]; omega
  simp only [decode, opcode]
  rw [decodeB_eq, if_pos (by omega), operand]

/-- The word of LDEV decodes to it, whether or not its slot is legal (30_encoding.md R71, R76). -/
theorem decode_encode_ldev (idx val : Byte) : decode (encode (.ldev idx val)) = .ok (.ldev idx val) := by
  have hw := encode_ldev_toNat idx val
  have hi := idx.isLt
  have hv := val.isLt
  have opcode : (opcodeField (encode (.ldev idx val))).toNat = 2 := by rw [opcodeField_toNat]; omega
  have slot : lowByteField (encode (.ldev idx val)) = idx := by
    apply BitVec.eq_of_toNat_eq; rw [lowByteField_toNat]; omega
  have value : highByteField (encode (.ldev idx val)) = val := by
    apply BitVec.eq_of_toNat_eq; rw [highByteField_toNat]; omega
  simp only [decode, opcode]
  rw [decodeS_eq, if_pos (by omega), slot, value]

/-- The word of PUSHF decodes to it: format F has no must-be-zero bit (30_encoding.md R71). -/
theorem decode_encode_pushf (frag : Frag) : decode (encode (.pushf frag)) = .ok (.pushf frag) := by
  have hw := encode_pushf_toNat frag
  have opcode : (opcodeField (encode (.pushf frag))).toNat = 3 := by rw [opcodeField_toNat]; omega
  have operand : argField (encode (.pushf frag)) = frag := by
    apply BitVec.eq_of_toNat_eq; rw [argField_toNat]; omega
  simp only [decode, opcode, decodeF, operand]

/-- Decoding undoes encoding, for every command and every value of its operands; a command without operands has one fixed word. -/
@[simp] theorem decode_encode (i : Instr) : decode (encode i) = .ok i := by
  cases i with
  | ldb imm8 => exact decode_encode_ldb imm8
  | ldev idx val => exact decode_encode_ldev idx val
  | pushf frag => exact decode_encode_pushf frag
  | nop | clrf | fact | fenc | fdec | tfmt | tprs | bfmt | bprs => rfl

end Sys2Proof
end

section
/-! What a word on the port does, and what a step does when the host's next move is one (00_scope.md R14, 10_state.md R42). -/

namespace Sys2Proof.Machine

/-- A word that decodes runs its command (30_encoding.md R75). -/
theorem issueWord_of_ok {w : CmdWord} {i : Instr} (h : decode w = .ok i) (s : State) : issueWord w s = exec i s := by
  simp only [issueWord, h]

/-- A word that does not decode is an illegal command (30_encoding.md R74, R75). -/
theorem issueWord_of_error {w : CmdWord} {e : DecodeError} (h : decode w = .error e) (s : State) :
    issueWord w s = execIllegal s := by
  simp only [issueWord, h]

/-- An illegal command on a live block raises `IllegalCommand` (30_encoding.md R74, R75). -/
theorem execIllegal_live {s : State} (live : s.err = none) : execIllegal s = .next (raiseFault .illegalCommand s) :=
  unlessFaulted_live live

/-- On a faulted block a word changes nothing, legal or not (60_exceptions.md R184). -/
theorem issueWord_of_faulted (w : CmdWord) {s : State} (faulted : s.err ≠ none) : issueWord w s = .next s := by
  cases h : decode w with
  | ok i => rw [issueWord_of_ok h, exec_of_faulted i faulted]
  | error e => rw [issueWord_of_error h]; exact unlessFaulted_faulted faulted

/-- An illegal command neither reads nor writes the host's list (10_state.md R42). -/
theorem execIllegal_setScript (s : State) (moves : List HostMove) :
    execIllegal (setScript moves s) = carryScript moves (execIllegal s) := by
  simp only [execIllegal, unlessFaulted, setScript_err]
  split <;> rfl

/-- A word neither reads nor writes the host's list (10_state.md R42). -/
theorem issueWord_setScript (w : CmdWord) (s : State) (moves : List HostMove) :
    issueWord w (setScript moves s) = carryScript moves (issueWord w s) := by
  cases h : decode w with
  | ok i => simp only [issueWord_of_ok h, exec_setScript]
  | error e => simp only [issueWord_of_error h, execIllegal_setScript]

/-- With nothing holding and a word next in the host's list, the step is the word's, the list moving on (00_scope.md R14). -/
theorem step_command {s : State} {w : CmdWord} {moves : List HostMove} (free : s.held = none)
    (presented : s.script = .command w :: moves) : step s = issueWord w (setScript moves s) := by
  simp only [step, nextMove, free, presented, hostMove]

/-- With nothing holding, a word does what it does to the block alone, the host's list standing beside it (10_state.md R42). -/
theorem issueWord_setScript_eq_blockStep {s : State} (free : s.held = none) (w : CmdWord) (moves : List HostMove) :
    issueWord w (setScript moves s) = carryScript moves (blockStep w s.toBlock) :=
  calc issueWord w (setScript moves s)
    _ = issueWord w (setScript moves (withHost [] s.toBlock)) := by
      rw [withHost_of_not_held s free, setScript_setScript]
    _ = carryScript moves (blockStep w s.toBlock) := issueWord_setScript w _ moves

/-- `withFetchWord` on the number of a 72-bit word presents that word (log 1). -/
theorem withFetchWord_toNat (s : State) (w : CmdWord) : s.withFetchWord 72 w.toNat = presentWord w s := by
  simp only [State.withFetchWord, Nat.mod_eq_of_lt w.isLt, BitVec.ofNat_toNat, BitVec.setWidth_eq]

/-- The step after a word is presented is the word's, whatever held before (log 1). -/
theorem step_presentWord (w : CmdWord) (s : State) : step (presentWord w s) = issueWord w (releaseHold s) :=
  step_command (s := presentWord w s) rfl rfl

/-- Settles O48: each clause is the rule for a word on the port, carried to the step that presents it. -/
theorem stepRunsThePresentedCommand : Obligations.StepRunsThePresentedCommand := by
  refine ⟨fun s w moves i free presented ok => ?_, fun s w moves e free presented bad live => ?_,
    fun s w moves free presented faulted => ?_, fun s w moves free presented => ?_, fun s i => ?_⟩
  · rw [step_command free presented, issueWord_of_ok ok]; rfl
  · rw [step_command free presented, issueWord_of_error bad, execIllegal_live (s := setScript moves s) live]; rfl
  · rw [step_command free presented, issueWord_of_faulted (s := setScript moves s) w faulted]; rfl
  · rw [step_command free presented, issueWord_setScript_eq_blockStep free]
  · rw [withFetchWord_toNat, step_presentWord, issueWord_of_ok (decode_encode i)]; rfl

end Sys2Proof.Machine
end

section
/-! What a data-path command that completes leaves in its destination, as a function of its source (00_scope.md R5). -/

namespace Sys2Proof.Machine

/-- The destination of a data-path command in `t` is what its codec function makes of the command's source in `s`; of a parse command
this is said when it finds its unit. The other commands are no data path (00_scope.md R5) and this says nothing of them. -/
def DeliversFromSource (i : Instr) (s t : State) : Prop :=
  match i with
  | .fact => factorize s.b = .ok t.ev
  | .fenc => t.fq = toFragments s.ev
  | .fdec => toByte s.fq = .ok t.b
  | .tprs => ∀ n, takeLine s.ibuf s.ist = .found n →
      lineByte (s.ibuf.take n) = .ok t.b ∧ t.ibuf = s.ibuf.drop (n + 1)
  | .bprs => ∀ n, takeRecord s.ibuf s.ist = .found n →
      t.fq = readFragments Config.fragByteOrder n (s.ibuf.drop 1) ∧ t.ibuf = s.ibuf.drop (recordLength n)
  | .nop | .ldb _ | .ldev _ _ | .pushf _ | .clrf | .tfmt | .bfmt => True

/-- A parse command that finds no unit has nothing to deliver. -/
theorem deliversFromSource_of_not_found {c : ParseCommand} {s t : State} (h : ∀ n, unitOutcome c s ≠ .found n) :
    DeliversFromSource (parseInstr c) s t := by
  cases c with
  | tprs => exact fun n found => absurd found (h n)
  | bprs => exact fun n found => absurd found (h n)

/-- Every effect that leaves the block live delivers from the command's source alone. -/
theorem Effect.deliversFromSource {i : Instr} {s t : State} (e : Effect i s t) (completes : t.err = none) :
    DeliversFromSource i s t := by
  cases e with
  | fact _ v h => exact h
  | fenc => rfl
  | fdec _ v h => exact h
  | tprs _ n v h hv =>
    intro m found
    cases h.symm.trans found
    exact ⟨hv, rfl⟩
  | bprs _ n h =>
    intro m found
    cases h.symm.trans found
    exact ⟨rfl, rfl⟩
  | endOfInput _ c h => exact deliversFromSource_of_not_found fun n found => by cases h.symm.trans found
  | holds _ c h => exact deliversFromSource_of_not_found fun n found => by cases h.symm.trans found
  | ldevBad | pushfFull | factRaises | fdecRaises | tprsRaises | fails => cases completes
  | nop | ldb | ldev | pushf | clrf | tfmt | bfmt => trivial

/-- A command that completes on a live block delivers from its source alone. -/
theorem exec_deliversFromSource {i : Instr} {s t : State} (live : s.err = none) (h : exec i s = .next t)
    (completes : t.err = none) : DeliversFromSource i s t :=
  (exec_effect live h).deliversFromSource completes

/-- An input with a terminator has a line, whatever `IST` is (44_text_codec.md R137). -/
theorem takeLine_found_of_mem {ibuf : List Byte} (h : (0x0A : Byte) ∈ ibuf) (ist : InputStatus) :
    ∃ n, takeLine ibuf ist = .found n := by
  obtain ⟨line, rest, rfl, free⟩ := List.eq_append_cons_of_mem h
  exact ⟨line.length, takeLine_found line rest ist free⟩

/-- Settles O58: both runs deliver the same function of sources that agree. -/
theorem dataPathsKeepNoCrossByteState : Obligations.DataPathsKeepNoCrossByteState := by
  intro s s' t t' live live' completes completes'
  refine ⟨fun src h h' => ?fact, fun src h h' => ?fenc, fun src h h' => ?fdec,
    fun src status line h h' => ?tprs, fun src status record h h' => ?bprs⟩
  all_goals
    have d := exec_deliversFromSource live h completes
    have d' := exec_deliversFromSource live' h' completes'
    simp only [DeliversFromSource] at d d'
  case fact => rw [src, d'] at d; exact (Except.ok.inj d).symm
  case fenc => rw [d, d', src]
  case fdec => rw [src, d'] at d; exact (Except.ok.inj d).symm
  case tprs =>
    obtain ⟨n, found⟩ := takeLine_found_of_mem line s.ist
    obtain ⟨value, left⟩ := d n found
    obtain ⟨value', left'⟩ := d' n (src ▸ status ▸ found)
    rw [src, value'] at value
    exact ⟨(Except.ok.inj value).symm, by rw [left, left', src]⟩
  case bprs =>
    obtain ⟨n, found⟩ := record
    obtain ⟨queue, left⟩ := d n found
    obtain ⟨queue', left'⟩ := d' n (src ▸ status ▸ found)
    exact ⟨by rw [queue, queue', src], by rw [left, left', src]⟩

end Sys2Proof.Machine
end

section
/-! Everything a step can do, said once (20_memory.md R60): `StepEffect s t` lists the ways a step takes `s` to `t`, and `step_effect`
shows there are no others. With it the equations of the steps the host's moves make. -/

namespace Sys2Proof.Machine

/-- What the host's moves on an open input do: the moves it may make during a hold too (10_state.md R36, R38). -/
inductive SuppliesInput (s : State) : HostMove → State → Prop
  | append (b : Byte) : SuppliesInput s (.append b) (appendInput b s)
  | endInput : SuppliesInput s .endInput (closeInput .eos s)
  | failInput : SuppliesInput s .failInput (closeInput .err s)

/-- The ways a step answers a next state. -/
inductive StepEffect (s : State) : State → Prop
  | word {w moves t} (free : s.held = none) (next : s.script = .command w :: moves)
      (h : issueWord w (setScript moves s) = .next t) : StepEffect s t
  | input {m moves t} (free : s.held = none) (next : s.script = m :: moves)
      (h : SuppliesInput (setScript moves s) m t) : StepEffect s t
  | drain {n moves} (free : s.held = none) (next : s.script = .drain n :: moves) :
      StepEffect s (drainOutput n (setScript moves s))
  | read {r moves} (free : s.held = none) (next : s.script = .readReg r :: moves) : StepEffect s (setScript moves s)
  | reset {moves} (free : s.held = none) (next : s.script = .assertReset :: moves) :
      StepEffect s (resetBlock (setScript moves s))
  | retry {c m moves r t} (held : s.held = some c) (next : s.script = m :: moves)
      (h : SuppliesInput (setScript moves s) m r) (again : exec (parseInstr c) (releaseHold r) = .next t) : StepEffect s t

variable {s t : State} {c : ParseCommand} {m : HostMove} {moves : List HostMove}

/-- With nothing holding, the step is the host's next move (10_state.md R36). -/
theorem step_free (free : s.held = none) (next : s.script = m :: moves) : step s = hostMove m (setScript moves s) := by
  simp only [step, nextMove, free, next]

/-- While a command holds, the step is the host's next move during the hold (10_state.md R38). -/
theorem step_held (held : s.held = some c) (next : s.script = m :: moves) :
    step s = moveWhileHeld c m (setScript moves s) := by
  simp only [step, nextMove, held, next]

/-- A hold with no further move of the host hangs (60_exceptions.md R190, log 6). -/
theorem step_held_nil (held : s.held = some c) (done : s.script = []) : step s = .fault .holdNeverLifted := by
  simp only [step, nextMove, held, done]

/-- An open input takes a byte (10_state.md R36). -/
theorem hostAppend_opened (h : s.ist = .opened) (b : Byte) : hostAppend b s = .next (appendInput b s) := by
  simp only [hostAppend, h]

/-- An input that is not open takes no byte (10_state.md R36). -/
theorem hostAppend_not_opened (h : s.ist ≠ .opened) (b : Byte) : hostAppend b s = .refused .inputNotOpen := by
  unfold hostAppend
  split
  · contradiction
  · rfl
  · rfl

/-- An open input can be closed (10_state.md R36). -/
theorem hostClose_opened (h : s.ist = .opened) (ist : InputStatus) : hostClose ist s = .next (closeInput ist s) := by
  simp only [hostClose, h]

/-- An input that is not open cannot be closed again (10_state.md R36). -/
theorem hostClose_not_opened (h : s.ist ≠ .opened) (ist : InputStatus) : hostClose ist s = .refused .inputNotOpen := by
  unfold hostClose
  split
  · contradiction
  · rfl
  · rfl

/-- The read port does not see the host's list. -/
theorem readRegister_setScript (r : RegNum) (s : State) (moves : List HostMove) :
    readRegister r (setScript moves s) = readRegister r s := rfl

/-- A read of a number that has a value changes nothing (10_state.md R35). -/
theorem hostRead_of_some {r : RegNum} {v : BitVec 64} (h : readRegister r s = some v) : hostRead r s = .next s := by
  simp only [hostRead, h]

/-- A read of a number that has no value is refused (10_state.md R35). -/
theorem hostRead_of_none {r : RegNum} (h : readRegister r s = none) : hostRead r s = .refused .noSuchRegister := by
  simp only [hostRead, h]

/-- The input moves leave the queue, the fault code and the record of a hold. -/
theorem SuppliesInput.frame (h : SuppliesInput s m t) : t.fq = s.fq ∧ t.err = s.err ∧ t.held = s.held := by
  cases h <;> exact ⟨rfl, rfl, rfl⟩

/-- An append that is made is one of the input moves. -/
theorem hostAppend_next {b : Byte} (h : hostAppend b s = .next t) : SuppliesInput s (.append b) t := by
  by_cases o : s.ist = .opened
  · rw [hostAppend_opened o] at h; cases h; exact .append b
  · rw [hostAppend_not_opened o] at h; cases h

/-- A close that is made closes the input. -/
theorem hostClose_next {ist : InputStatus} (h : hostClose ist s = .next t) : t = closeInput ist s := by
  by_cases o : s.ist = .opened
  · rw [hostClose_opened o] at h; cases h; rfl
  · rw [hostClose_not_opened o] at h; cases h

/-- With nothing holding, the host's move has one of the listed effects. -/
theorem hostMove_effect (free : s.held = none) (next : s.script = m :: moves)
    (h : hostMove m (setScript moves s) = .next t) : StepEffect s t := by
  cases m with
  | command w => exact .word free next h
  | append b => exact .input free next (hostAppend_next h)
  | endInput => cases hostClose_next h; exact .input free next .endInput
  | failInput => cases hostClose_next h; exact .input free next .failInput
  | drain n => cases h; exact .drain free next
  | readReg r =>
    cases hv : readRegister r (setScript moves s) with
    | none => rw [hostMove, hostRead_of_none hv] at h; cases h
    | some v => rw [hostMove, hostRead_of_some hv] at h; cases h; exact .read free next
  | assertReset => cases h; exact .reset free next

/-- An attempt that answers a next state follows an action that was made (60_exceptions.md R190). -/
theorem retry_next {acted : Result} (h : retry c acted = .next t) :
    ∃ r, acted = .next r ∧ exec (parseInstr c) (releaseHold r) = .next t := by
  cases acted with
  | next r => exact ⟨r, rfl, h⟩
  | fault _ => cases h
  | refused _ => cases h

/-- During a hold the host's move has one of the listed effects. -/
theorem moveWhileHeld_effect (held : s.held = some c) (next : s.script = m :: moves)
    (h : moveWhileHeld c m (setScript moves s) = .next t) : StepEffect s t := by
  cases m with
  | append b =>
    obtain ⟨r, acted, again⟩ := retry_next h
    exact .retry held next (hostAppend_next acted) again
  | endInput =>
    obtain ⟨r, acted, again⟩ := retry_next h
    cases hostClose_next acted
    exact .retry held next .endInput again
  | failInput =>
    obtain ⟨r, acted, again⟩ := retry_next h
    cases hostClose_next acted
    exact .retry held next .failInput again
  | command | drain | readReg | assertReset => cases h

/-- A step that answers a next state has one of the listed effects. -/
theorem step_effect (h : step s = .next t) : StepEffect s t := by
  cases held : s.held with
  | none =>
    cases next : s.script with
    | nil => simp only [step, nextMove, held, next, reduceCtorEq] at h
    | cons m moves => exact hostMove_effect held next (step_free held next ▸ h)
  | some c =>
    cases next : s.script with
    | nil => rw [step_held_nil held next] at h; cases h
    | cons m moves => exact moveWhileHeld_effect held next (step_held held next ▸ h)

end Sys2Proof.Machine
end

section
/-! What the outcome tables of the parse commands say of the input (44_text_codec.md R137, 45_binary_codec.md R155). -/

namespace Sys2Proof.Machine

variable {ibuf : List Byte} {ist : InputStatus} {n : Nat}

/-- A line found stands in the input with its terminator (44_text_codec.md R137). -/
theorem lt_length_of_takeLine_found (h : takeLine ibuf ist = .found n) : n < ibuf.length := by
  rcases line_or_none ibuf with ⟨line, rest, rfl, free⟩ | free
  · rw [takeLine_found line rest ist free] at h
    cases h
    simp
  · rw [takeLine_none ibuf ist free] at h
    cases ist with
    | opened | err => cases h
    | eos =>
      dsimp only at h
      split at h <;> cases h

/-- TPRS meets the clean end exactly on an empty input that ended (44_text_codec.md R137). -/
theorem takeLine_endOfInput_iff : takeLine ibuf ist = .endOfInput ↔ ibuf = [] ∧ ist = .eos := by
  constructor
  · intro h
    rcases line_or_none ibuf with ⟨line, rest, rfl, free⟩ | free
    · rw [takeLine_found line rest ist free] at h
      cases h
    · rw [takeLine_none ibuf ist free] at h
      cases ist with
      | opened | err => cases h
      | eos =>
        by_cases e : ibuf = []
        · exact ⟨e, rfl⟩
        · simp only [e, if_false, reduceCtorEq] at h
  · rintro ⟨rfl, rfl⟩
    rfl

/-- A record found has a one-byte count and stands in the input whole (45_binary_codec.md R155). -/
theorem takeRecord_found (h : takeRecord ibuf ist = .found n) : n ≤ 255 ∧ recordLength n ≤ ibuf.length := by
  cases ibuf with
  | nil => cases ist <;> cases h
  | cons count rest =>
    rw [takeRecord_cons] at h
    split at h
    · cases h
      exact ⟨Nat.le_of_lt_succ count.isLt, ‹_›⟩
    · cases ist <;> cases h

/-- BPRS meets the clean end exactly on an empty input that ended (45_binary_codec.md R155). -/
theorem takeRecord_endOfInput_iff : takeRecord ibuf ist = .endOfInput ↔ ibuf = [] ∧ ist = .eos := by
  cases ibuf with
  | nil => cases ist <;> simp [takeRecord]
  | cons count rest =>
    rw [takeRecord_cons]
    split
    · simp
    · cases ist <;> simp

/-- Both parse commands meet the clean end on the same input (60_exceptions.md R189). -/
theorem unitOutcome_endOfInput_iff {c : ParseCommand} {s : State} :
    unitOutcome c s = .endOfInput ↔ s.ibuf = [] ∧ s.ist = .eos := by
  cases c with
  | tprs => exact takeLine_endOfInput_iff
  | bprs => exact takeRecord_endOfInput_iff

end Sys2Proof.Machine
end

section
/-! What each command writes, field by field (10_state.md R40), that every command answers a next state, and what the clean end
does. All are case splits on `Effect`. -/

namespace Sys2Proof.Machine

variable {i : Instr} {s t : State}

/-- The commands that can hold are TPRS and BPRS. -/
theorem parseInstr_eq (c : ParseCommand) : parseInstr c = .tprs ∨ parseInstr c = .bprs := by
  cases c with
  | tprs => exact .inl rfl
  | bprs => exact .inr rfl

/-- On a live block a parse command looks its outcome up first (44_text_codec.md R136, 45_binary_codec.md R154). -/
theorem exec_parseInstr (live : s.err = none) (c : ParseCommand) :
    ∃ consume, exec (parseInstr c) s = parseUnit c (unitOutcome c s) consume s := by
  cases c with
  | tprs => exact ⟨consumeLine, unlessFaulted_live live⟩
  | bprs => exact ⟨consumeRecord, unlessFaulted_live live⟩

/-- Each listed effect is the answer of its command: with `exec_effect`, a command answers exactly its effects. -/
theorem Effect.exec_eq (e : Effect i s t) (live : s.err = none) : exec i s = .next t := by
  cases e with
  | nop => rw [exec, execNop, unlessFaulted_live live]
  | ldb => rw [exec, execLdb, unlessFaulted_live live]
  | ldev _ idx v j h => rw [exec, execLdev, unlessFaulted_live live, slotOf_eq_some.mpr h]
  | ldevBad _ idx v h => rw [exec, execLdev, unlessFaulted_live live, slotOf_ge h]
  | pushf _ f h => rw [exec, execPushf, unlessFaulted_live live, if_pos h]
  | pushfFull _ f h => rw [exec, execPushf, unlessFaulted_live live, if_neg (Nat.not_lt.mpr h)]
  | clrf => rw [exec, execClrf, unlessFaulted_live live]
  | fact _ v h => rw [exec, execFact, unlessFaulted_live live, h]
  | factRaises _ cause h => rw [exec, execFact, unlessFaulted_live live, h]
  | fenc => rw [exec, execFenc, unlessFaulted_live live]
  | fdec _ v h => rw [exec, execFdec, unlessFaulted_live live, h]
  | fdecRaises _ cause h => rw [exec, execFdec, unlessFaulted_live live, h]
  | tfmt => rw [exec, execTfmt, unlessFaulted_live live]
  | tprs _ n v h hv => rw [exec, execTprs, unlessFaulted_live live, h, parseUnit, consumeLine, hv]
  | tprsRaises _ n cause h hc => rw [exec, execTprs, unlessFaulted_live live, h, parseUnit, consumeLine, hc]
  | bfmt => rw [exec, execBfmt, unlessFaulted_live live]
  | bprs _ n h => rw [exec, execBprs, unlessFaulted_live live, h, parseUnit, consumeRecord]
  | endOfInput _ c h =>
    obtain ⟨consume, run⟩ := exec_parseInstr live c
    rw [run, h, parseUnit]
  | holds _ c h =>
    obtain ⟨consume, run⟩ := exec_parseInstr live c
    rw [run, h, parseUnit]
  | fails _ c cause h =>
    obtain ⟨consume, run⟩ := exec_parseInstr live c
    rw [run, h, parseUnit]

/-- A parse command has an effect on every state, given one for the unit it finds. -/
theorem exists_effect_parseInstr {c : ParseCommand} (found : ∀ n, unitOutcome c s = .found n → ∃ t, Effect (parseInstr c) s t) :
    ∃ t, Effect (parseInstr c) s t := by
  cases h : unitOutcome c s with
  | found n => exact found n h
  | endOfInput => exact ⟨_, .endOfInput s c h⟩
  | holds => exact ⟨_, .holds s c h⟩
  | fails cause => exact ⟨_, .fails s c cause h⟩

/-- Every command has an effect on every state. -/
theorem exists_effect (i : Instr) (s : State) : ∃ t, Effect i s t := by
  cases i with
  | nop => exact ⟨_, .nop s⟩
  | ldb v => exact ⟨_, .ldb s v⟩
  | ldev idx v =>
    by_cases h : idx.toNat < Config.numSlots
    · exact ⟨_, .ldev s idx v ⟨_, h⟩ rfl⟩
    · exact ⟨_, .ldevBad s idx v (Nat.not_lt.mp h)⟩
  | pushf f =>
    by_cases h : s.fq.length < Config.queueDepth
    · exact ⟨_, .pushf s f h⟩
    · exact ⟨_, .pushfFull s f (Nat.not_lt.mp h)⟩
  | clrf => exact ⟨_, .clrf s⟩
  | fact =>
    cases h : factorize s.b with
    | ok v => exact ⟨_, .fact s v h⟩
    | error cause => exact ⟨_, .factRaises s cause h⟩
  | fenc => exact ⟨_, .fenc s⟩
  | fdec =>
    cases h : toByte s.fq with
    | ok v => exact ⟨_, .fdec s v h⟩
    | error cause => exact ⟨_, .fdecRaises s cause h⟩
  | tfmt => exact ⟨_, .tfmt s⟩
  | tprs =>
    refine exists_effect_parseInstr (c := .tprs) fun n found => ?_
    cases h : lineByte (s.ibuf.take n) with
    | ok v => exact ⟨_, .tprs s n v found h⟩
    | error cause => exact ⟨_, .tprsRaises s n cause found h⟩
  | bfmt => exact ⟨_, .bfmt s⟩
  | bprs => exact exists_effect_parseInstr (c := .bprs) fun n found => ⟨_, .bprs s n found⟩

/-- Every command answers a next state, in every state (10_state.md R40; log 2, log 5). -/
theorem exec_answers (i : Instr) (s : State) : ∃ t, exec i s = .next t := by
  by_cases live : s.err = none
  · obtain ⟨t, e⟩ := exists_effect i s
    exact ⟨t, e.exec_eq live⟩
  · exact ⟨s, exec_of_faulted i live⟩

/-- Only LDB, FDEC and TPRS write `B` (10_state.md R40). -/
theorem Effect.b_writer (e : Effect i s t) (h : t.b ≠ s.b) : (∃ imm8, i = .ldb imm8) ∨ i = .fdec ∨ i = .tprs := by
  cases e with
  | ldb _ v => exact .inl ⟨v, rfl⟩
  | fdec => exact .inr (.inl rfl)
  | tprs => exact .inr (.inr rfl)
  | _ => exact absurd rfl h

/-- Only LDEV, FACT and FENC write `EV` (10_state.md R40). -/
theorem Effect.ev_writer (e : Effect i s t) (h : t.ev ≠ s.ev) : (∃ idx val, i = .ldev idx val) ∨ i = .fact ∨ i = .fenc := by
  cases e with
  | ldev _ idx v => exact .inl ⟨idx, v, rfl⟩
  | fact => exact .inr (.inl rfl)
  | fenc => exact .inr (.inr rfl)
  | _ => exact absurd rfl h

/-- Only PUSHF, CLRF, FENC and BPRS write `FQ` (10_state.md R40). -/
theorem Effect.fq_writer (e : Effect i s t) (h : t.fq ≠ s.fq) :
    (∃ frag, i = .pushf frag) ∨ i = .clrf ∨ i = .fenc ∨ i = .bprs := by
  cases e with
  | pushf _ f => exact .inl ⟨f, rfl⟩
  | clrf => exact .inr (.inl rfl)
  | fenc => exact .inr (.inr (.inl rfl))
  | bprs => exact .inr (.inr (.inr rfl))
  | _ => exact absurd rfl h

/-- Only TPRS and BPRS take from `IBUF` (10_state.md R40). -/
theorem Effect.ibuf_writer (e : Effect i s t) (h : t.ibuf ≠ s.ibuf) : i = .tprs ∨ i = .bprs := by
  cases e with
  | tprs => exact .inl rfl
  | bprs => exact .inr rfl
  | _ => exact absurd rfl h

/-- Only TFMT and BFMT append to `OBUF` (10_state.md R40). -/
theorem Effect.obuf_writer (e : Effect i s t) (h : t.obuf ≠ s.obuf) : i = .tfmt ∨ i = .bfmt := by
  cases e with
  | tfmt => exact .inl rfl
  | bfmt => exact .inr rfl
  | _ => exact absurd rfl h

/-- Only TPRS and BPRS write `STATUS.EOS`, at the clean end too (10_state.md R26). -/
theorem Effect.eos_writer (e : Effect i s t) (h : t.eos ≠ s.eos) : i = .tprs ∨ i = .bprs := by
  cases e with
  | tprs => exact .inl rfl
  | bprs => exact .inr rfl
  | endOfInput _ c => exact parseInstr_eq c
  | _ => exact absurd rfl h

/-- Only TPRS and BPRS hold (60_exceptions.md R190). -/
theorem Effect.held_writer (e : Effect i s t) (h : t.held ≠ s.held) : i = .tprs ∨ i = .bprs := by
  cases e with
  | holds _ c => exact parseInstr_eq c
  | _ => exact absurd rfl h

/-- No command writes `IST` (10_state.md R32). -/
theorem Effect.ist_eq (e : Effect i s t) : t.ist = s.ist := by
  cases e <;> rfl

/-- No command writes the host's list (10_state.md R42). -/
theorem Effect.script_eq (e : Effect i s t) : t.script = s.script := by
  cases e <;> rfl

/-- `IBUF` only loses bytes from its front (10_state.md R40). -/
theorem Effect.ibuf_drop (e : Effect i s t) : ∃ n, t.ibuf = s.ibuf.drop n := by
  cases e with
  | tprs _ n => exact ⟨n + 1, rfl⟩
  | bprs _ n => exact ⟨recordLength n, rfl⟩
  | _ => exact ⟨0, rfl⟩

/-- A command that raises writes the cause and nothing else (60_exceptions.md R184). -/
theorem Effect.raises (e : Effect i s t) (live : s.err = none) (raised : t.err ≠ none) : ∃ cause, t = raiseFault cause s := by
  cases e with
  | ldevBad | pushfFull => exact ⟨_, rfl⟩
  | factRaises _ cause | fdecRaises _ cause | tprsRaises _ _ cause | fails _ _ cause => exact ⟨cause, rfl⟩
  | _ => exact absurd live raised

/-- Settles O57: each clause is the frame of one piece of state. -/
theorem commandsTouchOnlyTheirState : Obligations.CommandsTouchOnlyTheirState := by
  refine ⟨exec_answers, fun i s t live h _ => ?_⟩
  have e := exec_effect live h
  exact ⟨e.b_writer, e.ev_writer, e.fq_writer, e.ibuf_writer, e.obuf_writer, e.eos_writer, e.held_writer, e.ist_eq,
    e.script_eq, e.ibuf_drop⟩

end Sys2Proof.Machine
end

section
/-! The invariant of every command boundary (10_state.md R41): the reset state meets it and every step keeps it. -/

namespace Sys2Proof.Machine

variable {i : Instr} {s t : State} {m : HostMove}

/-- With nothing holding, the record of a hold is right. -/
theorem holdIsRight_of_free (free : s.held = none) : HoldIsRight s := by
  simp only [HoldIsRight, free]

/-- With nothing holding, the queue's bound is the invariant. -/
theorem inv_of_free (queue : s.fq.length ≤ Config.queueDepth) (free : s.held = none) : s.Inv :=
  ⟨queue, holdIsRight_of_free free⟩

/-- Settles O54: the queue is empty and nothing holds. -/
theorem resetMeetsTheInvariant : Obligations.ResetMeetsTheInvariant := inv_of_free (Nat.zero_le _) rfl

/-- FENC fits the queue: there are as many fragments as the largest slot, an 8-bit number, says (42_fragment_encoder.md R113). -/
theorem toFragments_length_le (v : ExpVec) : (toFragments v).length ≤ Config.queueDepth := by
  have h := maxSlot_le_255 v.toList
  rw [toFragments_eq_layers, List.length_map, List.length_range]
  exact Nat.max_le.mpr ⟨by decide, h⟩

/-- No command takes the queue above its depth (10_state.md R41). -/
theorem Effect.keeps_queue (e : Effect i s t) (queue : s.fq.length ≤ Config.queueDepth) : t.fq.length ≤ Config.queueDepth := by
  cases e with
  | pushf _ f h => simpa using h
  | clrf => exact Nat.zero_le _
  | fenc => exact toFragments_length_le s.ev
  | bprs _ n h => simpa [readFragments_length] using (takeRecord_found h).1
  | _ => exact queue

/-- The only effect that records a hold is the hold of a live block's parse command (60_exceptions.md R190). -/
theorem Effect.hold_is_right (e : Effect i s t) (live : s.err = none) (free : s.held = none) : HoldIsRight t := by
  cases e with
  | holds _ c h => exact ⟨live, h⟩
  | _ => exact holdIsRight_of_free free

/-- A command on a state in which nothing holds keeps the invariant. -/
theorem exec_keeps_inv (queue : s.fq.length ≤ Config.queueDepth) (free : s.held = none) (h : exec i s = .next t) : t.Inv := by
  by_cases live : s.err = none
  · have e := exec_effect live h
    exact ⟨e.keeps_queue queue, e.hold_is_right live free⟩
  · rw [exec_of_faulted i live] at h
    cases h
    exact inv_of_free queue free

/-- A word on the port keeps the invariant: an illegal one writes `STATUS.ERR` at most. -/
theorem issueWord_keeps_inv {w : CmdWord} (queue : s.fq.length ≤ Config.queueDepth) (free : s.held = none)
    (h : issueWord w s = .next t) : t.Inv := by
  cases hw : decode w with
  | ok i => exact exec_keeps_inv queue free (issueWord_of_ok hw s ▸ h)
  | error e =>
    rw [issueWord_of_error hw] at h
    rcases unlessFaulted_next h with ⟨_, rfl⟩ | ⟨_, raised⟩
    · exact inv_of_free queue free
    · cases raised
      exact inv_of_free queue free

/-- Settles O55: a step is a word, a move of the host that leaves the queue or empties it, or the next attempt of a command that
held. -/
theorem stepKeepsTheInvariant : Obligations.StepKeepsTheInvariant := by
  intro s t inv h
  have queue := inv.queue
  cases step_effect h with
  | @word _ moves _ free _ issued => exact issueWord_keeps_inv (s := setScript moves s) queue free issued
  | input free _ supplied =>
    obtain ⟨hfq, -, hheld⟩ := supplied.frame
    exact inv_of_free (by rw [hfq]; exact queue) (by rw [hheld]; exact free)
  | drain free | read free => exact inv_of_free queue free
  | reset => exact inv_of_free (Nat.zero_le _) rfl
  | retry held _ supplied again =>
    obtain ⟨hfq, -, -⟩ := supplied.frame
    exact exec_keeps_inv (by rw [releaseHold_fq, hfq]; exact queue) rfl again

end Sys2Proof.Machine
end

section
/-! `STATUS`: its layout (10_state.md R24), that a fault code stays until reset (R25), and who writes `STATUS.EOS` (R26). -/

namespace Sys2Proof.Machine

variable {i : Instr} {s t : State}

/-- The code of `STATUS.ERR` is at most 7 (10_state.md R25). -/
theorem errCode_le (s : State) : (errCode s).toNat ≤ 7 := by
  cases h : s.err with
  | none => simp [errCode, h]
  | some cause => simpa only [errCode, h] using (causeCode_range cause).2

/-- The code of `STATUS.ERR` is 0 exactly when no fault is recorded (10_state.md R25). -/
theorem errCode_eq_zero_iff : errCode s = 0 ↔ s.err = none := by
  cases h : s.err with
  | none => simp [errCode, h]
  | some cause =>
    have positive := (causeCode_range cause).1
    simp only [errCode, h, reduceCtorEq, iff_false]
    intro zero
    rw [zero] at positive
    exact absurd positive (by decide)

/-- The bits of the `STATUS` word: the code in bits 3:0, `EOS` in bit 4, zero above (10_state.md R24). -/
theorem statusWord_getLsbD (s : State) (i : Nat) :
    (statusWord s).getLsbD i = if i < 4 then (errCode s).getLsbD i else decide (i = 4) && s.eos := by
  change (0#59 ++ BitVec.ofBool s.eos ++ errCode s : BitVec (59 + 1 + 4)).getLsbD i = _
  rw [BitVec.getLsbD_append, BitVec.getLsbD_append, BitVec.getLsbD_zero, BitVec.getLsbD_ofBool]
  by_cases code : i < 4
  · simp only [code, if_true]
  · have bit : i - 4 < 1 ↔ i = 4 := by omega
    by_cases eos : i = 4 <;> simp [code, bit, eos]

/-- A step from a faulted block leaves `STATUS.ERR`, unless the host asserts `rst` (10_state.md R25). -/
theorem StepEffect.err_of_faulted (e : StepEffect s t) (faulted : s.err ≠ none) :
    t.err = s.err ∨ (s.held = none ∧ s.script.head? = some .assertReset ∧ t.err = none) := by
  cases e with
  | @word w moves _ _ _ issued =>
    rw [issueWord_of_faulted (s := setScript moves s) w faulted] at issued
    cases issued
    exact .inl rfl
  | input _ _ supplied =>
    obtain ⟨-, herr, -⟩ := supplied.frame
    exact .inl herr
  | drain | read => exact .inl rfl
  | reset free next => exact .inr ⟨free, by rw [next, List.head?_cons], rfl⟩
  | retry _ _ supplied again =>
    obtain ⟨-, herr, -⟩ := supplied.frame
    rw [exec_of_faulted (s := releaseHold _) _ (herr ▸ faulted)] at again
    cases again
    exact .inl herr

/-- Settles O44: from a faulted block only `rst` writes `STATUS.ERR`, and every cause's code is at most 7. -/
theorem errStaysUntilReset : Obligations.ErrStaysUntilReset := by
  refine ⟨fun s t c faulted h => ?_, errCode_le⟩
  rw [← faulted]
  exact (step_effect h).err_of_faulted (by simp [faulted])

/-- Settles O51: the three fields of the concatenation, and the code of no fault. -/
theorem statusLayout : Obligations.StatusLayout := by
  intro s
  refine ⟨?err, ?eos, fun i hi => ?above, by decide, ?zero⟩
  case err => ext i hi; simp [statusWord_getLsbD, hi]
  case eos => rw [statusWord_getLsbD, if_neg (by decide), decide_eq_true rfl, Bool.true_and]
  case above => rw [statusWord_getLsbD, if_neg (by omega), decide_eq_false (by omega), Bool.false_and]
  case zero => rw [errCode_eq_zero_iff, Option.eq_none_iff_forall_ne_some]

/-- A command's effect does not depend on `STATUS.EOS`: with another value there, the same effect but for `EOS` (10_state.md R26). -/
theorem Effect.with_eos (e : Effect i s t) (v : Bool) : ∃ v', Effect i (setEos v s) (setEos v' t) := by
  cases e with
  | nop => exact ⟨v, .nop _⟩
  | ldb _ x => exact ⟨v, .ldb _ x⟩
  | ldev _ idx x j h => exact ⟨v, .ldev _ idx x j h⟩
  | ldevBad _ idx x h => exact ⟨v, .ldevBad _ idx x h⟩
  | pushf _ f h => exact ⟨v, .pushf _ f h⟩
  | pushfFull _ f h => exact ⟨v, .pushfFull _ f h⟩
  | clrf => exact ⟨v, .clrf _⟩
  | fact _ x h => exact ⟨v, .fact _ x h⟩
  | factRaises _ cause h => exact ⟨v, .factRaises _ cause h⟩
  | fenc => exact ⟨v, .fenc _⟩
  | fdec _ x h => exact ⟨v, .fdec _ x h⟩
  | fdecRaises _ cause h => exact ⟨v, .fdecRaises _ cause h⟩
  | tfmt => exact ⟨v, .tfmt _⟩
  | tprs _ n x h hx => exact ⟨false, .tprs _ n x h hx⟩
  | tprsRaises _ n cause h hc => exact ⟨v, .tprsRaises _ n cause h hc⟩
  | bfmt => exact ⟨v, .bfmt _⟩
  | bprs _ n h => exact ⟨false, .bprs _ n h⟩
  | endOfInput _ c h => exact ⟨true, .endOfInput _ c h⟩
  | holds _ c h => exact ⟨v, .holds _ c h⟩
  | fails _ c cause h => exact ⟨v, .fails _ c cause h⟩

/-- No command's other effects depend on `STATUS.EOS`, on a faulted block either (10_state.md R26). -/
theorem exec_with_eos (v : Bool) (h : exec i s = .next t) : ∃ v', exec i (setEos v s) = .next (setEos v' t) := by
  by_cases live : s.err = none
  · obtain ⟨v', e⟩ := (exec_effect live h).with_eos v
    exact ⟨v', e.exec_eq live⟩
  · rw [exec_of_faulted i live] at h
    cases h
    exact ⟨v, exec_of_faulted i live⟩

/-- A command that is not TPRS or BPRS leaves `STATUS.EOS`, on a faulted block either (10_state.md R26). -/
theorem exec_eos_of_not_parse (h : exec i s = .next t) (notTprs : i ≠ .tprs) (notBprs : i ≠ .bprs) : t.eos = s.eos := by
  by_cases live : s.err = none
  · by_contra changed
    exact ((exec_effect live h).eos_writer changed).elim notTprs notBprs
  · rw [exec_of_faulted i live] at h
    cases h
    rfl

/-- A parse command that completes found the clean end or took bytes from `IBUF` (44_text_codec.md R136, 45_binary_codec.md R154). -/
theorem Effect.parse_completes (e : Effect i s t) (parse : i = .tprs ∨ i = .bprs) (completes : t.err = none)
    (free : t.held = none) :
    (s.ibuf = [] ∧ s.ist = .eos ∧ t = setEos true s) ∨ (t.ibuf.length < s.ibuf.length ∧ t.eos = false) := by
  cases e with
  | tprs _ n _ h =>
    have := lt_length_of_takeLine_found h
    exact .inr ⟨by simp; omega, rfl⟩
  | bprs _ n h =>
    have := (takeRecord_found h).2
    exact .inr ⟨by simp [recordLength] at *; omega, rfl⟩
  | endOfInput _ c h =>
    obtain ⟨empty, ended⟩ := unitOutcome_endOfInput_iff.mp h
    exact .inl ⟨empty, ended, rfl⟩
  | holds => cases free
  | tprsRaises | fails => cases completes
  | _ => simp at parse

/-- Settles O45: the writers of `EOS`, the precise raise, the two ways a parse command completes, and that an effect is the same
whatever `EOS` is. -/
theorem eosIsWrittenByParseCommandsOnly : Obligations.EosIsWrittenByParseCommandsOnly := by
  refine ⟨fun i s t h => exec_eos_of_not_parse h, fun i s t live h raised => ?raise,
    fun c s t live _ h completes free => (exec_effect live h).parse_completes (parseInstr_eq c) completes free,
    fun c s live empty ended => ?cleanEnd, fun i s t v h => exec_with_eos v h⟩
  case raise =>
    obtain ⟨cause, rfl⟩ := (exec_effect live h).raises live raised
    rfl
  case cleanEnd => exact (Effect.endOfInput s c (unitOutcome_endOfInput_iff.mpr ⟨empty, ended⟩)).exec_eq live

end Sys2Proof.Machine
end

section
/-! The read port (10_state.md R34, R35), range by range, and the reset values (R39). -/

namespace Sys2Proof.Machine

variable {s : State} {r : RegNum} {i : Nat}

/-- A register number given as a number below 1024 is that number. -/
theorem regNum_toNat {n : Nat} (h : n < 1024) : (BitVec.ofNat 10 n : RegNum).toNat = n := by
  rw [BitVec.toNat_ofNat, Nat.mod_eq_of_lt h]

/-- The numbers of `EV` (10_state.md R34). -/
theorem readRegister_slot (h : i ≤ 54) :
    readRegister (BitVec.ofNat 10 (0x040 + i)) s = s.ev[i]?.map (·.setWidth 64) := by
  have hn := regNum_toNat (n := 0x040 + i) (by omega)
  simp (disch := omega) only [readRegister, hn, if_neg, if_pos, Nat.add_sub_cancel_left]

/-- The numbers of `PT` (10_state.md R34). -/
theorem readRegister_prime (h : i ≤ 53) :
    readRegister (BitVec.ofNat 10 (0x080 + i)) s = primeTable[i]?.map (·.setWidth 64) := by
  have hn := regNum_toNat (n := 0x080 + i) (by omega)
  simp (disch := omega) only [readRegister, hn, if_neg, if_pos, Nat.add_sub_cancel_left]

/-- The numbers of `FQ` (10_state.md R34). -/
theorem readRegister_fragment (h : i ≤ 254) : readRegister (BitVec.ofNat 10 (0x100 + i)) s = s.fq[i]? := by
  have hn := regNum_toNat (n := 0x100 + i) (by omega)
  simp (disch := omega) only [readRegister, hn, if_neg, if_pos, Nat.add_sub_cancel_left]

/-- The reserved numbers have no value (10_state.md R34, R35). -/
theorem readRegister_reserved (h : (0x003 ≤ r.toNat ∧ r.toNat ≤ 0x03F) ∨ (0x077 ≤ r.toNat ∧ r.toNat ≤ 0x07F) ∨
    (0x0B6 ≤ r.toNat ∧ r.toNat ≤ 0x0FF) ∨ 0x1FF ≤ r.toNat) : readRegister r s = none := by
  rcases h with h | h | h | h
  all_goals simp (disch := omega) only [readRegister, if_neg, if_pos]

/-- A slot's byte, read as a 64-bit word, is the slot's value. -/
theorem slot_setWidth (v : ExpVec) (h : i ≤ 54) : v[i]?.map (·.setWidth 64) = some (BitVec.ofNat 64 (slotValue v i)) := by
  have hi : i < Config.numSlots := Nat.lt_succ_of_le h
  simp [slotValue, hi]

/-- A prime of the table, read as a 64-bit word, is its slot's factor (00_scope.md R18). -/
theorem prime_setWidth (h : i ≤ 53) : primeTable[i]?.map (·.setWidth 64) = some (BitVec.ofNat 64 (slotFactor (i + 1))) := by
  have hi : i < primeTable.length := Nat.lt_succ_of_le h
  have prime : slotPrime (i + 1) = some primeTable[i] := List.getElem?_eq_getElem hi
  rw [slotFactor_of_some prime, BitVec.ofNat_toNat, List.getElem?_eq_getElem hi, Option.map_some]

/-- Settles O50: the port's map, one range of numbers after the other. -/
theorem readPortMap : Obligations.ReadPortMap := by
  intro s
  refine ⟨rfl, rfl, rfl, fun i hi => ?_, fun i hi => ?_, fun j f hj present => ?_, fun j hj absent => ?_,
    fun r reserved => readRegister_reserved reserved⟩
  · rw [readRegister_slot hi, slot_setWidth s.ev hi]
  · rw [readRegister_prime hi, prime_setWidth hi]
  · rw [readRegister_fragment hj, present]
  · rw [readRegister_fragment hj, List.getElem?_eq_none absent]

/-- Every slot is 0 after reset (10_state.md R39). -/
theorem slotValue_reset : ∀ i, slotValue State.reset.ev i = 0 := slotValue_eq_of (by decide) fun _ _ => rfl

/-- Settles O52: the values of `Block.reset`, and the primes of R101. -/
theorem resetValues : Obligations.ResetValues :=
  ⟨by decide, rfl, slotValue_reset, rfl, rfl, rfl, rfl, rfl, rfl, rfl⟩

end Sys2Proof.Machine
end

section
/-! What the host's moves do between commands (10_state.md R36) and during a hold (R38, 60_exceptions.md R190). -/

namespace Sys2Proof.Machine

/-- Settles O49: each move, by the rule for it. -/
theorem hostMovesBetweenCommands : Obligations.HostMovesBetweenCommands := by
  intro s moves free
  refine ⟨fun b next o => ?append, fun next o => ?endInput, fun next o => ?failInput, fun m next input closed => ?refused,
    fun n out rest next split len => ?drain, fun r v next value => ?read, fun r next absent => ?noRegister, fun next => ?reset⟩
  all_goals rw [step_free free next]
  case append => exact hostAppend_opened (s := setScript moves s) o b
  case endInput => exact hostClose_opened (s := setScript moves s) o .eos
  case failInput => exact hostClose_opened (s := setScript moves s) o .err
  case refused =>
    rcases input with ⟨b, rfl⟩ | rfl | rfl
    · exact hostAppend_not_opened (s := setScript moves s) closed b
    · exact hostClose_not_opened (s := setScript moves s) closed .eos
    · exact hostClose_not_opened (s := setScript moves s) closed .err
  case drain =>
    have left : s.obuf.drop n = rest := by rw [split, ← len, List.drop_left]
    rw [← left]
    rfl
  case read => exact hostRead_of_some ((readRegister_setScript r s moves).trans value)
  case noRegister => exact hostRead_of_none ((readRegister_setScript r s moves).trans absent)
  case reset => rfl

/-- During a hold every move but the three on the input is refused (10_state.md R38, log 7). -/
theorem moveWhileHeld_refused {m : HostMove} (c : ParseCommand) (s : State) (notAppend : ∀ b, m ≠ .append b)
    (notEnd : m ≠ .endInput) (notFail : m ≠ .failInput) : moveWhileHeld c m s = .refused .moveDuringHold := by
  cases m with
  | append b => exact absurd rfl (notAppend b)
  | endInput => exact absurd rfl notEnd
  | failInput => exact absurd rfl notFail
  | command | drain | readReg | assertReset => rfl

/-- Settles O47: an action that is made is followed by the command's next attempt; every other move, and none, stops. -/
theorem hostLiftsAHold : Obligations.HostLiftsAHold := by
  intro s c moves held o
  refine ⟨fun b next => ?append, fun next => ?endInput, fun next => ?failInput, fun m next notAppend notEnd notFail => ?other,
    fun done => step_held_nil held done⟩
  all_goals rw [step_held held next]
  case append => rw [moveWhileHeld, hostAppend_opened (s := setScript moves s) o]; rfl
  case endInput => rw [moveWhileHeld, hostClose_opened (s := setScript moves s) o]; rfl
  case failInput => rw [moveWhileHeld, hostClose_opened (s := setScript moves s) o]; rfl
  case other => exact moveWhileHeld_refused c _ notAppend notEnd notFail

end Sys2Proof.Machine
end

section
/-! The bytes of a fragment's field, in either order (20_memory.md R52, 00_scope.md R10). -/

namespace Sys2Proof.Machine

variable {o : Config.ByteOrder} {f : Frag} {k i : Nat} {b : Byte} {bytes : List Byte}

/-- Byte `k` of `LE8` is the slice of 8 bits from `8k` up (00_scope.md R10). -/
theorem extractLsb'_of_le8_getElem? (h : (le8 f)[k]? = some b) : b = f.extractLsb' (8 * k) 8 := by
  obtain ⟨hk, rfl⟩ := List.getElem?_eq_some_iff.mp h
  simp only [le8, List.getElem_map, List.getElem_range]

/-- Bit `i` of byte `k` of `LE8` is bit `8k + i` of the fragment (00_scope.md R10). -/
theorem getLsbD_of_le8_getElem? (h : (le8 f)[k]? = some b) (hi : i < 8) : b.getLsbD i = f.getLsbD (8 * k + i) := by
  rw [extractLsb'_of_le8_getElem? h, BitVec.getLsbD_extractLsb', decide_eq_true hi, Bool.true_and]

/-- The byte order keeps the number of bytes (20_memory.md R52). -/
theorem inByteOrder_length (o : Config.ByteOrder) (bytes : List Byte) : (inByteOrder o bytes).length = bytes.length := by
  cases o with
  | little => rfl
  | big => exact List.length_reverse

/-- Writing the fragment of an 8-byte field gives the field back, in either order (20_memory.md R52). -/
theorem fragmentField_fieldFragment (o : Config.ByteOrder) (h : bytes.length = 8) :
    fragmentField o (fieldFragment o bytes) = bytes := by
  rw [fragmentField, fieldFragment, le8_unLe8 _ ((inByteOrder_length o bytes).trans h), inByteOrder_self]

/-- Settles O35: the slices of `LE8`, and that both it and the byte order have an inverse. -/
theorem fragmentFieldBytes : Obligations.FragmentFieldBytes :=
  ⟨fun _ _ _ _ => getLsbD_of_le8_getElem?, fun f => ⟨le8_length f, rfl, rfl⟩, fieldFragment_field,
    fun o _ => fragmentField_fieldFragment o⟩

end Sys2Proof.Machine
end

section
/-! The block never takes bytes of `OBUF` back: a command only appends, a raise leaves them, and only the host's drain and `rst`
shorten it (20_memory.md R57, 60_exceptions.md R186). -/

namespace Sys2Proof.Machine

variable {i : Instr} {w : CmdWord} {m : HostMove} {s t : State}

/-- A command on a live block appends to `OBUF` or leaves it (20_memory.md R57). -/
theorem Effect.obuf_prefix (e : Effect i s t) : s.obuf <+: t.obuf := by
  cases e with
  | tfmt | bfmt => exact List.prefix_append _ _
  | _ => exact List.prefix_rfl

/-- A command appends to `OBUF` or leaves it, on a faulted block too (20_memory.md R57). -/
theorem exec_obuf_prefix (h : exec i s = .next t) : s.obuf <+: t.obuf := by
  by_cases live : s.err = none
  · exact (exec_effect live h).obuf_prefix
  · rw [exec_of_faulted i live] at h
    cases h
    exact List.prefix_rfl

/-- A word that is no command writes `STATUS.ERR` at most (30_encoding.md R74, R75; 60_exceptions.md R184). -/
theorem execIllegal_next (h : execIllegal s = .next t) : t = s ∨ t = raiseFault .illegalCommand s := by
  rcases unlessFaulted_next h with ⟨_, same⟩ | ⟨_, raised⟩
  · exact .inl same
  · cases raised
    exact .inr rfl

/-- A word on the port appends to `OBUF` or leaves it (20_memory.md R57). -/
theorem issueWord_obuf_prefix (h : issueWord w s = .next t) : s.obuf <+: t.obuf := by
  cases hw : decode w with
  | ok i => exact exec_obuf_prefix (issueWord_of_ok hw s ▸ h)
  | error e =>
    rw [issueWord_of_error hw] at h
    rcases execIllegal_next h with rfl | rfl <;> exact List.prefix_rfl

/-- A word that raises on a live block writes the cause and nothing else (60_exceptions.md R184, R186). -/
theorem issueWord_raises (live : s.err = none) (h : issueWord w s = .next t) (raised : t.err ≠ none) :
    ∃ cause, t = raiseFault cause s := by
  cases hw : decode w with
  | ok i =>
    rw [issueWord_of_ok hw] at h
    exact (exec_effect live h).raises live raised
  | error e =>
    rw [issueWord_of_error hw, execIllegal_live live] at h
    cases h
    exact ⟨_, rfl⟩

/-- The input moves leave `OBUF` (10_state.md R36). -/
theorem SuppliesInput.obuf_eq (h : SuppliesInput s m t) : t.obuf = s.obuf := by
  cases h <;> rfl

/-- A step appends to `OBUF` or leaves it, unless it is the host's `rst` or drain (20_memory.md R57). -/
theorem StepEffect.obuf_prefix_or_host (e : StepEffect s t) : s.obuf <+: t.obuf ∨ s.script.head? = some .assertReset ∨
    ∃ n, s.script.head? = some (.drain n) ∧ t.obuf = s.obuf.drop n := by
  cases e with
  | @word w moves _ _ _ issued => exact .inl (issueWord_obuf_prefix (s := setScript moves s) issued)
  | input _ _ supplied => exact .inl (supplied.obuf_eq ▸ List.prefix_rfl)
  | @drain n _ _ next => exact .inr (.inr ⟨n, by rw [next, List.head?_cons], rfl⟩)
  | read => exact .inl List.prefix_rfl
  | reset _ next => exact .inr (.inl (by rw [next, List.head?_cons]))
  | retry _ _ supplied again =>
    have appended := exec_obuf_prefix again
    rw [releaseHold_obuf, supplied.obuf_eq] at appended
    exact .inl appended

/-- Settles O56: a word only appends, a raise writes the cause alone, and of a step's effects only drain and `rst` shorten `OBUF`. -/
theorem outputIsNeverTakenBack : Obligations.OutputIsNeverTakenBack := by
  refine ⟨fun w s t => issueWord_obuf_prefix, fun w s t live h raised => ?raise, fun s t h => (step_effect h).obuf_prefix_or_host⟩
  case raise =>
    obtain ⟨cause, rfl⟩ := issueWord_raises live h raised
    rfl

end Sys2Proof.Machine
end

section
/-! What a command word decodes to, said once (30_encoding.md R76): `DecodeCase w` lists the three outcomes, each with what is true of
the word, and `decode_cases` shows there are no others. -/

namespace Sys2Proof
open Machine

variable {w : CmdWord} {i : Instr}

/-- The outcomes of decoding a word, in the order of the checks (30_encoding.md R76). -/
inductive DecodeCase (w : CmdWord) : Prop
  | command (i : Instr) (legal : (opcodeField w).toNat ≤ 0x0B) (clear : mbzBits w = 0) (word : encode i = w)
  | mbz (legal : (opcodeField w).toNat ≤ 0x0B) (set : mbzBits w ≠ 0) (refused : decode w = .error .nonZeroMbz)
  | reserved (opcode : 0x0C ≤ (opcodeField w).toNat) (refused : decode w = .error .reservedOpcode)

/-- Format N: the whole argument field must be zero, and then the word is its opcode (30_encoding.md R71). -/
theorem DecodeCase.formatN (opcode : (opcodeField w).toNat = (encode i).toNat) (format : decode w = decodeN w i)
    (plain : (encode i).toNat ≤ 0x0B ∧ (encode i).toNat ≠ 1 ∧ (encode i).toNat ≠ 2 ∧ (encode i).toNat ≠ 3) : DecodeCase w := by
  obtain ⟨range, notB, notS, notF⟩ := plain
  have legal : (opcodeField w).toNat ≤ 0x0B := opcode.trans_le range
  rw [opcodeField_toNat] at opcode
  have bits : mbzBits w = w.toNat / 2 ^ 8 := by
    rw [mbzBits_toNat, opcode, if_neg notB, if_neg notS, if_neg notF]
  by_cases clear : mbzBits w = 0
  · exact .command i legal clear (BitVec.eq_of_toNat_eq (by omega))
  · exact .mbz legal clear (by rw [format, decodeN_eq, ← bits, if_neg clear])

/-- Format B: the bits above the byte must be zero, and then the word is opcode and byte (30_encoding.md R71). -/
theorem DecodeCase.formatB (opcode : (opcodeField w).toNat = 1) (format : decode w = decodeB w .ldb) : DecodeCase w := by
  have legal : (opcodeField w).toNat ≤ 0x0B := by omega
  rw [opcodeField_toNat] at opcode
  have bits : mbzBits w = w.toNat / 2 ^ 16 := by rw [mbzBits_toNat, if_pos opcode]
  by_cases clear : mbzBits w = 0
  · refine .command (.ldb (lowByteField w)) legal clear (BitVec.eq_of_toNat_eq ?_)
    rw [encode_ldb_toNat, lowByteField_toNat]
    omega
  · exact .mbz legal clear (by rw [format, decodeB_eq, ← bits, if_neg clear])

/-- Format S: the bits above slot and value must be zero, and then the word is opcode, slot and value (30_encoding.md R71). -/
theorem DecodeCase.formatS (opcode : (opcodeField w).toNat = 2) (format : decode w = decodeS w .ldev) : DecodeCase w := by
  have legal : (opcodeField w).toNat ≤ 0x0B := by omega
  rw [opcodeField_toNat] at opcode
  have bits : mbzBits w = w.toNat / 2 ^ 24 := by rw [mbzBits_toNat, if_neg (by omega), if_pos opcode]
  by_cases clear : mbzBits w = 0
  · refine .command (.ldev (lowByteField w) (highByteField w)) legal clear (BitVec.eq_of_toNat_eq ?_)
    rw [encode_ldev_toNat, lowByteField_toNat, highByteField_toNat]
    omega
  · exact .mbz legal clear (by rw [format, decodeS_eq, ← bits, if_neg clear])

/-- Format F: no bit must be zero, and every word is opcode and fragment (30_encoding.md R71). -/
theorem DecodeCase.formatF (opcode : (opcodeField w).toNat = 3) : DecodeCase w := by
  have legal : (opcodeField w).toNat ≤ 0x0B := by omega
  rw [opcodeField_toNat] at opcode
  have clear : mbzBits w = 0 := by rw [mbzBits_toNat, if_neg (by omega), if_neg (by omega), if_pos opcode]
  refine .command (.pushf (argField w)) legal clear (BitVec.eq_of_toNat_eq ?_)
  rw [encode_pushf_toNat, argField_toNat]
  omega

/-- Every word has one of the listed outcomes: the opcode map, row by row (30_encoding.md R72, R74). -/
theorem decode_cases (w : CmdWord) : DecodeCase w := by
  match opcode : (opcodeField w).toNat with
  | 0x00 => exact .formatN (i := .nop) opcode (by simp only [decode, opcode]) (by decide)
  | 0x01 => exact .formatB opcode (by simp only [decode, opcode])
  | 0x02 => exact .formatS opcode (by simp only [decode, opcode])
  | 0x03 => exact .formatF opcode
  | 0x04 => exact .formatN (i := .clrf) opcode (by simp only [decode, opcode]) (by decide)
  | 0x05 => exact .formatN (i := .fact) opcode (by simp only [decode, opcode]) (by decide)
  | 0x06 => exact .formatN (i := .fenc) opcode (by simp only [decode, opcode]) (by decide)
  | 0x07 => exact .formatN (i := .fdec) opcode (by simp only [decode, opcode]) (by decide)
  | 0x08 => exact .formatN (i := .tfmt) opcode (by simp only [decode, opcode]) (by decide)
  | 0x09 => exact .formatN (i := .tprs) opcode (by simp only [decode, opcode]) (by decide)
  | 0x0A => exact .formatN (i := .bfmt) opcode (by simp only [decode, opcode]) (by decide)
  | 0x0B => exact .formatN (i := .bprs) opcode (by simp only [decode, opcode]) (by decide)
  | n + 0x0C => exact .reserved (by omega) (by simp only [decode, opcode])

end Sys2Proof
end

section
/-! Claims about decoding (30_encoding.md R70 to R76), read off `decode_cases`, and the rows of the opcode table (R75, R80). -/

namespace Sys2Proof
open Machine

variable {w : CmdWord} {i : Instr} {r : OpcodeRow}

/-- Settles O1: decoding undoes encoding, command by command. -/
theorem encodeThenDecode : Obligations.EncodeThenDecode := decode_encode

/-- A word that decodes to a command is its word, with a legal opcode and no must-be-zero bit set (30_encoding.md R76). -/
theorem legal_of_decode_ok (h : decode w = .ok i) : (opcodeField w).toNat ≤ 0x0B ∧ mbzBits w = 0 ∧ encode i = w := by
  cases decode_cases w with
  | command j legal clear word =>
    rw [← word, decode_encode] at h
    cases h
    exact ⟨legal, clear, word⟩
  | mbz _ _ refused | reserved _ refused =>
    rw [refused] at h
    cases h

/-- Settles O2: of the three outcomes only a command's own word decodes. -/
theorem decodeThenEncode : Obligations.DecodeThenEncode := fun _ _ h => (legal_of_decode_ok h).2.2

/-- A reserved opcode is refused whatever the argument field holds (30_encoding.md R74). -/
theorem decode_reserved_iff : decode w = .error .reservedOpcode ↔ 0x0C ≤ (opcodeField w).toNat := by
  cases decode_cases w with
  | command i legal _ word =>
    rw [← word, decode_encode, word]
    simp only [reduceCtorEq, false_iff]
    omega
  | mbz legal _ refused =>
    rw [refused]
    simp only [reduceCtorEq, Except.error.injEq, false_iff]
    omega
  | reserved opcode refused => exact iff_of_true refused opcode

/-- A legal opcode is refused exactly for a must-be-zero bit (30_encoding.md R75). -/
theorem decode_mbz_iff : decode w = .error .nonZeroMbz ↔ (opcodeField w).toNat ≤ 0x0B ∧ mbzBits w ≠ 0 := by
  cases decode_cases w with
  | command i _ clear word =>
    rw [← word, decode_encode, word]
    simp only [reduceCtorEq, clear, ne_eq, not_true, and_false]
  | mbz legal set refused => exact iff_of_true refused ⟨legal, set⟩
  | reserved opcode refused =>
    rw [refused]
    simp only [reduceCtorEq, Except.error.injEq, false_iff]
    omega

/-- A word is a command exactly when its opcode is legal and no must-be-zero bit is set (30_encoding.md R76). -/
theorem decode_ok_iff : (∃ i, decode w = .ok i) ↔ (opcodeField w).toNat ≤ 0x0B ∧ mbzBits w = 0 := by
  constructor
  · rintro ⟨i, h⟩
    obtain ⟨legal, clear, -⟩ := legal_of_decode_ok h
    exact ⟨legal, clear⟩
  · rintro ⟨legal, clear⟩
    cases decode_cases w with
    | command i _ _ word => exact ⟨i, by rw [← word, decode_encode]⟩
    | mbz _ set => exact absurd clear set
    | reserved opcode => omega

/-- A word that does not decode raises `IllegalCommand` on a live block (30_encoding.md R74, R75). -/
theorem issueWord_illegal {e : DecodeError} {s : State} (h : decode w = .error e) (live : s.err = none) :
    issueWord w s = .next (raiseFault .illegalCommand s) := by
  rw [issueWord_of_error h, execIllegal_live live]

/-- An LDEV with a slot number above 54 raises `IllegalOperand` on a live block (46_host_commands.md R167). -/
theorem issueWord_ldev_illegal {idx val : Byte} {s : State} (h : decode w = .ok (.ldev idx val)) (range : 54 < idx.toNat)
    (live : s.err = none) : issueWord w s = .next (raiseFault .illegalOperand s) := by
  rw [issueWord_of_ok h, (Effect.ldevBad s idx val range).exec_eq live]

/-- Settles O5: each outcome of decoding is known from opcode and must-be-zero bits, and LDEV's range is checked in running it. -/
theorem decodingIsTotalAndOrdered : Obligations.DecodingIsTotalAndOrdered :=
  ⟨fun _ => decode_reserved_iff, fun _ => decode_mbz_iff, fun _ => decode_ok_iff,
    fun _ _ _ _ h range live => issueWord_ldev_illegal h range live⟩

/-- The word of every command selects the row of its mnemonic (30_encoding.md R75, R80). -/
theorem exists_row_selects_encode (i : Instr) : ∃ r ∈ opcodeTable, r.mnemonic = i.mnemonic ∧ r.selects (encode i) = true := by
  cases i with
  | nop => exact Laws.EncodesInRow.nop
  | ldb imm8 => exact Laws.EncodesInRow.ldb imm8
  | ldev idx val => exact Laws.EncodesInRow.ldev idx val
  | pushf frag => exact Laws.EncodesInRow.pushf frag
  | clrf => exact Laws.EncodesInRow.clrf
  | fact => exact Laws.EncodesInRow.fact
  | fenc => exact Laws.EncodesInRow.fenc
  | fdec => exact Laws.EncodesInRow.fdec
  | tfmt => exact Laws.EncodesInRow.tfmt
  | tprs => exact Laws.EncodesInRow.tprs
  | bfmt => exact Laws.EncodesInRow.bfmt
  | bprs => exact Laws.EncodesInRow.bprs

/-- No two rows of the opcode table have one mnemonic (30_encoding.md R80). -/
theorem row_eq_of_mnemonic : ∀ r ∈ opcodeTable, ∀ r' ∈ opcodeTable, r.mnemonic = r'.mnemonic → r = r' := by decide

/-- Where a row's mask has every bit, a word that selects the row has the row's bits (30_encoding.md R75). -/
theorem field_of_selects {start len : Nat} (full : r.mask.extractLsb' start len = BitVec.allOnes len) (h : r.selects w = true) :
    w.extractLsb' start len = r.matchBits.extractLsb' start len := by
  rw [← (r.selects_eq w).mp h, BitVec.extractLsb'_and, full, BitVec.and_allOnes]

/-- A row whose mask has every bit is selected by its one word (30_encoding.md R75, R80). -/
theorem eq_of_selects_full (full : r.mask = BitVec.allOnes 72) (h : r.selects w = true) : w = r.matchBits := by
  have masked := (r.selects_eq w).mp h
  rwa [full, BitVec.and_allOnes] at masked

/-- A word that selects LDB's row is an LDB (30_encoding.md R71, R80). -/
theorem decode_of_selects_ldb (h : OpcodeRow.selects ⟨"LDB", 0x000000000000000001, 0xFFFFFFFFFFFFFF00FF⟩ w = true) :
    decode w = .ok (.ldb (lowByteField w)) := by
  have opcode : (opcodeField w).toNat = 1 := congrArg BitVec.toNat (field_of_selects (start := 0) (len := 8) rfl h)
  have mbz : mbzFieldB w = 0 := field_of_selects (start := 16) (len := 56) rfl h
  simp only [decode, opcode]
  exact if_pos mbz

/-- A word that selects LDEV's row is an LDEV (30_encoding.md R71, R80). -/
theorem decode_of_selects_ldev (h : OpcodeRow.selects ⟨"LDEV", 0x000000000000000002, 0xFFFFFFFFFFFF0000FF⟩ w = true) :
    decode w = .ok (.ldev (lowByteField w) (highByteField w)) := by
  have opcode : (opcodeField w).toNat = 2 := congrArg BitVec.toNat (field_of_selects (start := 0) (len := 8) rfl h)
  have mbz : mbzFieldS w = 0 := field_of_selects (start := 24) (len := 48) rfl h
  simp only [decode, opcode]
  exact if_pos mbz

/-- A word that selects PUSHF's row is a PUSHF: only its opcode is looked at (30_encoding.md R71, R80). -/
theorem decode_of_selects_pushf (h : OpcodeRow.selects ⟨"PUSHF", 0x000000000000000003, 0x0000000000000000FF⟩ w = true) :
    decode w = .ok (.pushf (argField w)) := by
  have opcode : (opcodeField w).toNat = 3 := congrArg BitVec.toNat (field_of_selects (start := 0) (len := 8) rfl h)
  simp only [decode, opcode, decodeF]

/-- A word that selects a row decodes to a command of the row's mnemonic: the rows of formats B, S and F have their operands free,
every other row is one word (30_encoding.md R75, R80). -/
theorem decode_of_selects (row : r ∈ opcodeTable) (h : r.selects w = true) : ∃ i, decode w = .ok i ∧ i.mnemonic = r.mnemonic := by
  simp only [opcodeTable, List.cons_append, List.nil_append, List.mem_cons, List.not_mem_nil, or_false] at row
  rcases row with rfl | rfl | rfl | rfl | rfl | rfl | rfl | rfl | rfl | rfl | rfl | rfl
  case inr.inl => exact ⟨_, decode_of_selects_ldb h, rfl⟩
  case inr.inr.inl => exact ⟨_, decode_of_selects_ldev h, rfl⟩
  case inr.inr.inr.inl => exact ⟨_, decode_of_selects_pushf h, rfl⟩
  all_goals
    obtain rfl := eq_of_selects_full rfl h
    exact ⟨_, rfl, rfl⟩

/-- A word that selects two rows decodes to a command of both mnemonics, so the rows are one (30_encoding.md R75). -/
theorem row_unique {r' : OpcodeRow} (row : r ∈ opcodeTable) (row' : r' ∈ opcodeTable) (h : r.selects w = true)
    (h' : r'.selects w = true) : r = r' := by
  obtain ⟨i, ok, name⟩ := decode_of_selects row h
  obtain ⟨i', ok', name'⟩ := decode_of_selects row' h'
  have same : i = i' := Except.ok.inj (ok.symm.trans ok')
  exact row_eq_of_mnemonic r row r' row' (by rw [← name, ← name', same])

/-- A word that selects no row does not decode, since a command's word selects the command's row (30_encoding.md R75). -/
theorem decode_of_selects_none (h : ∀ r ∈ opcodeTable, r.selects w = false) : ∃ e, decode w = .error e := by
  cases ok : decode w with
  | error e => exact ⟨e, rfl⟩
  | ok i =>
    obtain ⟨r, row, -, selects⟩ := exists_row_selects_encode i
    rw [decodeThenEncode w i ok, h r row] at selects
    cases selects

/-- Settles O3: the rows and the decoder agree in both directions. -/
theorem wordSelectsAtMostOneRow : Obligations.WordSelectsAtMostOneRow := by
  refine ⟨fun w s legal set live => ?mbz, fun w r row r' row' => row_unique row row', fun w r row => decode_of_selects row,
    fun w s none live => ?noRow⟩
  case mbz => exact issueWord_illegal (decode_mbz_iff.mpr ⟨legal, set⟩) live
  case noRow =>
    obtain ⟨e, refused⟩ := decode_of_selects_none none
    exact issueWord_illegal refused live

/-- Settles O6: sixteen words by decoding them, and the three faults by what an LDEV of slot 55 and a refused word do. -/
theorem workedEncodings : Obligations.WorkedEncodings :=
  ⟨rfl, rfl, rfl, rfl, rfl, ⟨rfl, fun _ => issueWord_ldev_illegal rfl (by decide)⟩, rfl, rfl, rfl, rfl, rfl, rfl, rfl, rfl, rfl, rfl,
    fun _ => issueWord_illegal (e := .reservedOpcode) rfl, fun _ => issueWord_illegal (e := .nonZeroMbz) rfl⟩

end Sys2Proof
end

section
/-! NOP is the only word that changes nothing on every live block (30_encoding.md R74): every other command changes the block
`disturbed` gives for it. -/

namespace Sys2Proof.Machine

/-- A live block that a command other than NOP changes: what the command writes stands at another value. -/
def disturbed : Instr → State
  | .ldb v => { State.reset with b := ~~~v }
  | .ldev _ v => { State.reset with ev := Vector.replicate Config.numSlots (~~~v) }
  | .clrf => { State.reset with fq := [0] }
  | .fact => { State.reset with ev := Vector.replicate Config.numSlots 1 }
  | .fenc => { State.reset with ev := Vector.replicate Config.numSlots 1 }
  | .fdec => { State.reset with b := 1 }
  | .nop | .pushf _ | .tfmt | .tprs | .bfmt | .bprs => State.reset

/-- The disturbed block is live. -/
theorem disturbed_live (i : Instr) : (disturbed i).err = none := by
  cases i <;> rfl

/-- An effect that changes a field of a live block is a change by its command. -/
theorem Effect.changes {α : Type} {i : Instr} {s t : State} (e : Effect i s t) (live : s.err = none) (field : State → α)
    (differs : field t ≠ field s) : exec i s ≠ .next s := by
  rw [e.exec_eq live]
  intro same
  cases same
  exact differs rfl

/-- Every command but NOP changes its disturbed block. -/
theorem exec_disturbed {i : Instr} (notNop : i ≠ .nop) : exec i (disturbed i) ≠ .next (disturbed i) := by
  have live := disturbed_live i
  cases i with
  | nop => exact absurd rfl notNop
  | ldb v => exact (Effect.ldb _ v).changes live (·.b) (by revert v; decide)
  | ldev idx v =>
    by_cases slot : idx.toNat < Config.numSlots
    · refine (Effect.ldev _ idx v ⟨idx.toNat, slot⟩ rfl).changes live (fun s => s.ev[idx.toNat]) ?_
      simp [disturbed]
    · exact (Effect.ldevBad _ idx v (Nat.not_lt.mp slot)).changes live (·.err) nofun
  | pushf f => exact (Effect.pushf State.reset f (by decide)).changes live (·.fq) nofun
  | clrf => exact (Effect.clrf _).changes live (·.fq) nofun
  | fact => exact (Effect.fact _ zeroVec rfl).changes live (·.ev) (by decide)
  | fenc => exact (Effect.fenc _).changes live (·.ev) (by decide)
  | fdec => exact (Effect.fdec _ 0 rfl).changes live (·.b) (by decide)
  | tfmt => exact (Effect.tfmt _).changes live (·.obuf) (by simp [disturbed, formatLine])
  | tprs => exact (Effect.holds _ .tprs rfl).changes live (·.held) nofun
  | bfmt => exact (Effect.bfmt _).changes live (·.obuf) nofun
  | bprs => exact (Effect.holds _ .bprs rfl).changes live (·.held) nofun

/-- The one word that changes nothing on every live block is NOP's (30_encoding.md R74). -/
theorem changes_nothing_iff (w : CmdWord) : (∀ s : State, s.err = none → issueWord w s = .next s) ↔ w = 0 := by
  constructor
  · intro idle
    cases h : decode w with
    | error e =>
      have raised := (issueWord_illegal (s := State.reset) h rfl).symm.trans (idle _ rfl)
      cases raised
    | ok i =>
      by_cases nop : i = .nop
      · rw [← decodeThenEncode w i h, nop]
        rfl
      · exact absurd (issueWord_of_ok h _ ▸ idle _ (disturbed_live i)) (exec_disturbed nop)
  · rintro rfl s live
    exact (issueWord_of_ok (i := .nop) rfl s).trans ((Effect.nop s).exec_eq live)

/-- Settles O4: a reserved opcode is refused in decoding, and every command but NOP changes some live block. -/
theorem reservedOpcodesRaise : Obligations.ReservedOpcodesRaise :=
  ⟨fun _ _ reserved live => issueWord_illegal (decode_reserved_iff.mpr reserved) live, changes_nothing_iff⟩

end Sys2Proof.Machine
end

section
/-! Fragment bits 55 to 63 (30_encoding.md R82): FENC leaves them 0, `toByte` does not look at them, and PUSHF, BPRS and BFMT carry
all 64 bits of a fragment. -/

namespace Sys2Proof.Machine

variable {s : State} {q : List Frag} {rest : List Byte}

/-- Every fragment of FENC is a layer of the vector (42_fragment_encoder.md R112). -/
theorem exists_layer_of_mem_toFragments {v : ExpVec} {f : Frag} (h : f ∈ toFragments v) : ∃ j, layer v.toList j = f := by
  rw [toFragments_eq_layers] at h
  obtain ⟨j, -, eq⟩ := List.mem_map.mp h
  exact ⟨j, eq⟩

/-- No fragment of FENC has a bit above 54 (30_encoding.md R82). -/
theorem toFragments_high_bits {v : ExpVec} {f : Frag} (h : f ∈ toFragments v) {i : Nat} (high : 55 ≤ i) : f.getLsbD i = false := by
  obtain ⟨j, rfl⟩ := exists_layer_of_mem_toFragments h
  rw [layer_getLsbD, slotValue_ge v high]
  exact decide_eq_false (Nat.not_lt_zero j)

/-- Clearing bits 55 to 63 leaves the set bits at positions 0 to 54. -/
theorem setSlots_mask (f : Frag) : setSlots (f &&& 0x007FFFFFFFFFFFFF) = setSlots f := by
  have mask : ∀ i < Config.numSlots, (0x007FFFFFFFFFFFFF : Frag).getLsbD i = true := by decide
  refine List.filter_congr fun i hi => ?_
  rw [BitVec.getLsbD_and, mask i (List.mem_range.mp hi), Bool.and_true]

/-- Two queues with the same bits set at positions 0 to 54 decode alike (43_fragment_decoder.md R121). -/
theorem toByte_congr {q' : List Frag} (h : q.flatMap setSlots = q'.flatMap setSlots) : toByte q = toByte q' := by
  simp only [toByte, visitFragments_eq, h]

/-- `toByte` does not look at bits 55 to 63 (30_encoding.md R82). -/
theorem toByte_mask (q : List Frag) : toByte (q.map (· &&& 0x007FFFFFFFFFFFFF)) = toByte q :=
  toByte_congr (by simp only [List.flatMap_map, setSlots_mask])

/-- The fields of a queue are 8 bytes for each fragment (30_encoding.md R84). -/
theorem fields_length (o : Config.ByteOrder) (q : List Frag) : (q.flatMap (fragmentField o)).length = 8 * q.length := by
  simp only [List.length_flatMap, fragmentField_length, List.map_const', List.sum_replicate, smul_eq_mul, Nat.mul_comm]

/-- The record of a queue of at most 255 fragments, first in the input, is complete (45_binary_codec.md R155). -/
theorem takeRecord_formatRecord (o : Config.ByteOrder) (bound : q.length ≤ 255) (rest : List Byte) (ist : InputStatus) :
    takeRecord (formatRecord o q ++ rest) ist = .found q.length := by
  have count : (BitVec.ofNat 8 q.length).toNat = q.length := Nat.mod_eq_of_lt (by omega)
  have fields := fields_length o q
  rw [formatRecord, List.cons_append, takeRecord_cons, count, if_pos (by rw [List.length_append]; omega)]

/-- A record has a count byte and 8 bytes for each fragment (30_encoding.md R84). -/
theorem formatRecord_length (o : Config.ByteOrder) (q : List Frag) : (formatRecord o q).length = recordLength q.length := by
  simp only [formatRecord, recordLength, List.length_cons, fields_length]
  omega

/-- BPRS of a record puts back its queue, with all 64 bits of every fragment, and takes its bytes (45_binary_codec.md R154, R158). -/
theorem exec_bprs_formatRecord (live : s.err = none) (bound : q.length ≤ 255)
    (input : s.ibuf = formatRecord Config.fragByteOrder q ++ rest) :
    exec .bprs s = .next { s with fq := q, ibuf := rest, eos := false } := by
  have found : takeRecord s.ibuf s.ist = .found q.length := by rw [input, takeRecord_formatRecord _ bound]
  have queue : readFragments Config.fragByteOrder q.length (s.ibuf.drop 1) = q := by
    rw [input]; exact readFragments_fields _ q rest
  have left : s.ibuf.drop (recordLength q.length) = rest := by
    rw [input, ← formatRecord_length Config.fragByteOrder, List.drop_left]
  rw [(Effect.bprs s _ found).exec_eq live, queue, ← left]
  rfl

/-- Settles O24: the encoder's layers, the decoder's positions, and the commands that move whole fragments. -/
theorem highFragmentBitsMeanNothing : Obligations.HighFragmentBitsMeanNothing := by
  refine ⟨fun v f h i => toFragments_high_bits h, toByte_mask, fun frag s live room => ?pushf,
    fun s q rest live bound input => ⟨?bprs, ?bfmt⟩⟩
  case pushf => exact (Effect.pushf s frag room).exec_eq live
  case bprs => exact exec_bprs_formatRecord live bound input
  case bfmt => exact (Effect.bfmt { s with fq := q }).exec_eq live

end Sys2Proof.Machine
end

section
/-! The text parser accepts exactly the lines of the grammar (30_encoding.md R86, 44_text_codec.md R138). -/

namespace Sys2Proof.Machine

variable {line : List Byte} {tokens : List Token} {parts : List (List Byte)}

/-- The parts that parse are those that are tokens, one by one (30_encoding.md R86). -/
theorem mapM_parseToken_eq (parts : List (List Byte)) (tokens : List Token) :
    parts.mapM parseToken = some tokens ↔ List.Forall₂ IsToken parts tokens := by
  induction parts generalizing tokens with
  | nil => simp [eq_comm]
  | cons p ps ih =>
    simp [List.mapM_cons, Option.bind_eq_some_iff, List.forall₂_cons_left_iff, parseToken_eq, ih, eq_comm (b := tokens)]

/-- A line that is not empty parses when its parts between the `;` do (44_text_codec.md R138). -/
theorem parseLine_eq_ok (nonempty : line ≠ []) :
    parseLine line = .ok tokens ↔ (splitAtByte semicolon line).mapM parseToken = some tokens := by
  cases line with
  | nil => exact absurd rfl nonempty
  | cons c cs =>
    unfold parseLine
    cases (splitAtByte semicolon (c :: cs)).mapM parseToken <;> simp

/-- A line that does not parse is `Corruption` (44_text_codec.md R138). -/
theorem parseLine_ok_or_corruption (line : List Byte) :
    (∃ tokens, parseLine line = .ok tokens) ∨ parseLine line = .error .corruption := by
  unfold parseLine
  split
  · exact .inl ⟨_, rfl⟩
  · split
    · exact .inl ⟨_, rfl⟩
    · exact .inr rfl

/-- A token has a byte, its `:`, and none of its bytes is `;` (30_encoding.md R86). -/
theorem IsToken.ne_nil_and_free {bytes : List Byte} {t : Token} (h : IsToken bytes t) : bytes ≠ [] ∧ semicolon ∉ bytes := by
  obtain ⟨index, count, rfl, ⟨-, indexDigits, -⟩, ⟨-, countDigits, -⟩, -⟩ := h
  refine ⟨by simp, fun mem => ?_⟩
  rcases List.mem_append.mp mem with mem | mem
  · exact (indexDigits _ mem).ne_marks.2.1 rfl
  · rcases List.mem_cons.mp mem with colon | mem
    · exact absurd colon (by decide)
    · exact (countDigits _ mem).ne_marks.2.1 rfl

/-- Tokens joined by `;` are no empty line, and split into themselves (30_encoding.md R86). -/
theorem splitAtByte_tokens (each : List.Forall₂ IsToken parts tokens) (nonempty : parts ≠ []) :
    [semicolon].intercalate parts ≠ [] ∧ splitAtByte semicolon ([semicolon].intercalate parts) = parts := by
  have part : ∀ p ∈ parts, p ≠ [] ∧ semicolon ∉ p :=
    ((List.forall₂_and_left parts tokens).mp (each.imp fun _ _ token => ⟨token.ne_nil_and_free, token⟩)).1
  have split := splitAtByte_eq semicolon parts nonempty fun p mem => (part p mem).2
  refine ⟨fun empty => ?_, split⟩
  rw [empty] at split
  exact (part [] (split ▸ List.mem_singleton_self [])).1 rfl

/-- The parser accepts exactly the grammar's lines (30_encoding.md R86). -/
theorem parseLine_iff_isLine (line : List Byte) (tokens : List Token) : parseLine line = .ok tokens ↔ IsLine line tokens := by
  constructor
  · intro ok
    by_cases empty : line = []
    · subst empty
      cases ok
      exact .inl ⟨rfl, rfl⟩
    · rw [parseLine_eq_ok empty, mapM_parseToken_eq] at ok
      refine .inr ⟨?_, splitAtByte semicolon line, (splitAtByte_intercalate semicolon line).symm, ok⟩
      rintro rfl
      exact splitAtByte_ne_nil semicolon line (List.forall₂_nil_right_iff.mp ok)
  · rintro (⟨rfl, rfl⟩ | ⟨hasToken, parts, rfl, each⟩)
    · rfl
    · have nonempty : parts ≠ [] := by
        rintro rfl
        exact hasToken (List.forall₂_nil_left_iff.mp each)
      obtain ⟨notEmpty, split⟩ := splitAtByte_tokens each nonempty
      exact (parseLine_eq_ok notEmpty).mpr (by rw [split, mapM_parseToken_eq]; exact each)

/-- Settles O28: a line that the parser does not accept can only be `Corruption`. -/
theorem parserAcceptsTheGrammar : Obligations.ParserAcceptsTheGrammar := by
  refine ⟨parseLine_iff_isLine, fun line outside => ?_⟩
  rcases parseLine_ok_or_corruption line with ⟨tokens, ok⟩ | corrupt
  · exact absurd ⟨tokens, (parseLine_iff_isLine line tokens).mp ok⟩ outside
  · exact corrupt

end Sys2Proof.Machine
end

section
/-! The sieve of 41_factorizer.md R100 gives the primes below its bound in order, and the table of R101 is its output for 255. -/

namespace Sys2Proof.Machine

/-- The primes among the first `k` numbers from 2 up, in order: what the sieve must have found after `k` numbers. -/
def primesFromTwo (k : Nat) : List Nat := (List.range' 2 k).filter fun p => p.Prime

/-- The members of `primesFromTwo`. -/
theorem mem_primesFromTwo {k p : Nat} : p ∈ primesFromTwo k ↔ p.Prime ∧ p < 2 + k := by
  simp only [primesFromTwo, List.mem_filter, List.mem_range'_1, decide_eq_true_eq]
  exact ⟨fun ⟨range, prime⟩ => ⟨prime, range.2⟩, fun ⟨prime, below⟩ => ⟨⟨prime.two_le, below⟩, prime⟩⟩

/-- Trial division by the primes below a number finds a divisor exactly when the number is not prime (41_factorizer.md R100). -/
theorem exists_primesFromTwo_dvd_iff {k : Nat} : (∃ p ∈ primesFromTwo k, (2 + k) % p = 0) ↔ ¬ (2 + k).Prime := by
  constructor
  · rintro ⟨p, found, divides⟩ prime
    obtain ⟨prime', below⟩ := mem_primesFromTwo.mp found
    exact below.ne ((Nat.prime_dvd_prime_iff_eq prime' prime).mp (Nat.dvd_of_mod_eq_zero divides))
  · intro composite
    refine ⟨(2 + k).minFac, mem_primesFromTwo.mpr ⟨Nat.minFac_prime (by omega), ?_⟩,
      Nat.mod_eq_zero_of_dvd (Nat.minFac_dvd _)⟩
    exact (Nat.not_prime_iff_minFac_lt (by omega)).mp composite

/-- One number of the sieve: the next number joins the primes found so far exactly when it is one (41_factorizer.md R100). -/
theorem sieveStep_primesFromTwo (k : Nat) : sieveStep (primesFromTwo k) (2 + k) = primesFromTwo (k + 1) := by
  have grow : primesFromTwo (k + 1) = primesFromTwo k ++ if (2 + k).Prime then [2 + k] else [] := by
    simp only [primesFromTwo, List.range'_1_concat, List.filter_append, List.filter_singleton, Bool.cond_decide]
  have trial : (primesFromTwo k).any (fun p => (2 + k) % p == 0) = true ↔ ¬ (2 + k).Prime := by
    simpa only [List.any_eq_true, beq_iff_eq] using exists_primesFromTwo_dvd_iff
  rw [sieveStep, grow]
  by_cases prime : (2 + k).Prime
  · rw [if_neg (trial.not.mpr (not_not.mpr prime)), if_pos prime]
  · rw [if_pos (trial.mpr prime), if_neg prime, List.append_nil]

/-- The sieve has found the primes among the numbers it has gone through (41_factorizer.md R100). -/
theorem sieve_eq (bound : Nat) : sieve bound = primesFromTwo (bound - 2) := by
  suffices loop : ∀ k, (List.range' 2 k).foldl sieveStep [] = primesFromTwo k from loop (bound - 2)
  intro k
  induction k with
  | zero => rfl
  | succ k ih => rw [List.range'_1_concat, List.foldl_concat, ih, sieveStep_primesFromTwo]

/-- The sieve's members are the primes below the bound (41_factorizer.md R100). -/
theorem mem_sieve {bound p : Nat} : p ∈ sieve bound ↔ p.Prime ∧ p < bound := by
  rw [sieve_eq, mem_primesFromTwo]
  refine and_congr_right fun prime => ?_
  have := prime.two_le
  omega

/-- The sieve's output ascends strictly (41_factorizer.md R100). -/
theorem sieve_pairwise (bound : Nat) : (sieve bound).Pairwise (· < ·) := by
  rw [sieve_eq]
  exact (List.pairwise_lt_range' (s := 2)).filter _

/-- `PT` as numbers. -/
def tablePrimes : List Nat := primeTable.map (·.toNat)

/-- The list of 41_factorizer.md R101 is the sieve's output for 255. -/
theorem tablePrimes_eq_sieve : tablePrimes = sieve 255 := by decide +kernel

/-- Settles O12: the loop finds the primes in order, and the list of R101 is computed by it. -/
theorem primeTableIsTheSieve : Obligations.PrimeTableIsTheSieve :=
  ⟨fun _ _ => mem_sieve, sieve_pairwise, tablePrimes_eq_sieve, rfl⟩

/-- `PT` holds the primes below 255 (41_factorizer.md R100). -/
theorem mem_tablePrimes {p : Nat} : p ∈ tablePrimes ↔ p.Prime ∧ p < 255 := by
  rw [tablePrimes_eq_sieve, mem_sieve]

/-- `PT` ascends strictly (41_factorizer.md R100). -/
theorem tablePrimes_pairwise : tablePrimes.Pairwise (· < ·) := tablePrimes_eq_sieve ▸ sieve_pairwise 255

/-- No prime stands in `PT` twice. -/
theorem tablePrimes_nodup : tablePrimes.Nodup := tablePrimes_pairwise.imp Nat.ne_of_lt

/-- A prime that divides a byte stands in `PT`: the one byte not below the bound, 255, is not prime (41_factorizer.md R107). -/
theorem mem_tablePrimes_of_dvd {q n : Nat} (prime : q.Prime) (divides : q ∣ n) (pos : 0 < n) (byte : n ≤ 255) :
    q ∈ tablePrimes := by
  have le := (Nat.le_of_dvd pos divides).trans byte
  refine mem_tablePrimes.mpr ⟨prime, lt_of_le_of_ne le ?_⟩
  rintro rfl
  exact absurd prime (by norm_num)

end Sys2Proof.Machine
end

section
/-! The sweep of 41_factorizer.md R102: the multiplicity of each prime of the table, and the part of the number without them. -/

namespace Sys2Proof.Machine

/-- The inner loop counts how often a prime divides and leaves the part it does not divide (41_factorizer.md R102, R104). -/
theorem divideOut_eq {p r fuel : Nat} (prime : p.Prime) (pos : 0 < r) (enough : r < 2 ^ fuel) :
    divideOut p fuel r = (r / p ^ r.factorization p, r.factorization p) := by
  induction fuel generalizing r with
  | zero => omega
  | succ fuel ih =>
    rw [divideOut]
    by_cases divides : p ∣ r
    · have shrinks : r / p < 2 ^ fuel :=
        calc r / p ≤ r / 2 := Nat.div_le_div_left prime.two_le (by decide)
          _ < 2 ^ fuel := by omega
      have quotient : 0 < r / p := Nat.div_pos (Nat.le_of_dvd pos divides) prime.pos
      have count : (r / p).factorization p + 1 = r.factorization p := by
        rw [Nat.factorization_div divides, Finsupp.tsub_apply, prime.factorization_self]
        exact Nat.sub_add_cancel (prime.factorization_pos_of_dvd pos.ne' divides)
      rw [if_pos (Nat.mod_eq_zero_of_dvd divides), ih quotient shrinks, Nat.ordCompl_div_of_dvd prime divides]
      simp only [count]
    · rw [if_neg (mt Nat.dvd_of_mod_eq_zero divides), Nat.factorization_eq_zero_of_not_dvd divides, pow_zero, Nat.div_one]

variable {ps : List Byte} {r : Nat}

/-- The sweep's step: the first prime's multiplicity, and the sweep of the part that it does not divide (41_factorizer.md R102). -/
theorem sweep_cons {p : Byte} (prime : p.toNat.Prime) (pos : 0 < r) (byte : r ≤ 255) :
    sweep (p :: ps) r = (BitVec.ofNat 8 (r.factorization p.toNat) :: (sweep ps (r / p.toNat ^ r.factorization p.toNat)).1,
      (sweep ps (r / p.toNat ^ r.factorization p.toNat)).2) := by
  rw [sweep, divideOut_eq prime pos (by omega)]

/-- Over different primes the sweep's counts are the multiplicities in the number swept (41_factorizer.md R102). -/
theorem sweep_counts (primes : ∀ p ∈ ps, p.toNat.Prime) (different : (ps.map (·.toNat)).Nodup) (pos : 0 < r)
    (byte : r ≤ 255) :
    (sweep ps r).1 = ps.map fun p => BitVec.ofNat 8 (r.factorization p.toNat) := by
  induction ps generalizing r with
  | nil => rfl
  | cons p ps ih =>
    obtain ⟨prime, primes⟩ := List.forall_mem_cons.mp primes
    obtain ⟨new, different⟩ := List.nodup_cons.mp different
    rw [sweep_cons prime pos byte, ih primes different (Nat.ordCompl_pos _ pos.ne') ((Nat.ordCompl_le _ _).trans byte)]
    refine congrArg (BitVec.ofNat 8 _ :: ·) (List.map_congr_left fun q later => ?_)
    have other : q.toNat ≠ p.toNat := fun same => new (List.mem_map.mpr ⟨q, later, same⟩)
    rw [Nat.factorization_ordCompl, Finsupp.erase_ne other]

/-- What the sweep leaves divides the number swept, and no prime of the sweep divides it (41_factorizer.md R102). -/
theorem sweep_residue (primes : ∀ p ∈ ps, p.toNat.Prime) (pos : 0 < r) (byte : r ≤ 255) :
    (sweep ps r).2 ∣ r ∧ ∀ p ∈ ps, ¬ p.toNat ∣ (sweep ps r).2 := by
  induction ps generalizing r with
  | nil => exact ⟨dvd_rfl, List.forall_mem_nil _⟩
  | cons p ps ih =>
    obtain ⟨prime, primes⟩ := List.forall_mem_cons.mp primes
    rw [sweep_cons prime pos byte]
    obtain ⟨divides, free⟩ := ih primes (Nat.ordCompl_pos p.toNat pos.ne') ((Nat.ordCompl_le _ _).trans byte)
    exact ⟨divides.trans (Nat.ordCompl_dvd _ _), List.forall_mem_cons.mpr
      ⟨fun left => Nat.not_dvd_ordCompl prime pos.ne' (left.trans divides), free⟩⟩

/-- The entries of `PT` are primes (41_factorizer.md R100). -/
theorem prime_of_mem_primeTable {p : Byte} (h : p ∈ primeTable) : p.toNat.Prime :=
  (mem_tablePrimes.mp (List.mem_map_of_mem h)).1

/-- The sweep of a byte over the table ends at 1: every prime that divides a byte is in the table (41_factorizer.md R107). -/
theorem sweep_primeTable_residue (pos : 0 < r) (byte : r ≤ 255) : (sweep primeTable r).2 = 1 := by
  obtain ⟨divides, free⟩ := sweep_residue (fun _ => prime_of_mem_primeTable) pos byte
  by_contra more
  obtain ⟨q, prime, left⟩ := Nat.exists_prime_and_dvd more
  obtain ⟨p, entry, rfl⟩ := List.mem_map.mp (mem_tablePrimes_of_dvd prime (left.trans divides) pos byte)
  exact free p entry left

/-- The sweep of a byte over the table counts its prime factors (41_factorizer.md R102). -/
theorem sweep_primeTable_counts (pos : 0 < r) (byte : r ≤ 255) :
    (sweep primeTable r).1 = primeTable.map fun p => BitVec.ofNat 8 (r.factorization p.toNat) :=
  sweep_counts (fun _ => prime_of_mem_primeTable) tablePrimes_nodup pos byte

end Sys2Proof.Machine
end

section
/-! What `factorize` answers, said once (41_factorizer.md R102): `Factorized b ev` lists the three cases, `exists_factorize` shows
that every byte has one, and `slotValue_factors` reads the slots of the third as the multiplicities of the primes. -/

namespace Sys2Proof.Machine

variable {b : Byte} {ev : ExpVec}

/-- The vectors `factorize` answers: the sentinel, the unity vector, and the counts of the sweep (41_factorizer.md R102). -/
inductive Factorized : Byte → ExpVec → Prop
  | zero : Factorized 0 zeroVec
  | one : Factorized 1 (zeroVec.set 0 1)
  | factors (b : Byte) (h : 2 ≤ b.toNat) : Factorized b (slotsOfSweep 0 b.toNat)

/-- `factorize` answers a vector for every byte, and it is one of the listed (41_factorizer.md R102, R107). -/
theorem exists_factorize (b : Byte) : ∃ ev, factorize b = .ok ev ∧ Factorized b ev := by
  by_cases zero : b = 0
  · subst zero
    exact ⟨_, rfl, .zero⟩
  by_cases one : b = 1
  · subst one
    exact ⟨_, rfl, .one⟩
  · have range : 2 ≤ b.toNat := by bv_omega
    have residue := sweep_primeTable_residue (r := b.toNat) (by omega) (by omega)
    refine ⟨_, ?_, .factors b range⟩
    simp only [factorize, if_neg zero, if_neg one, residue, ne_eq, not_true, false_and, if_false]

/-- Everything `factorize` can answer (41_factorizer.md R102). -/
theorem factorized_of_ok (h : factorize b = .ok ev) : Factorized b ev := by
  obtain ⟨ev', answer, listed⟩ := exists_factorize b
  rw [answer] at h
  cases h
  exact listed

/-- The slots of the sentinel. -/
theorem slotValue_zeroVec (i : Nat) : slotValue zeroVec i = 0 := slotValue_reset i

/-- The slots of the unity vector. -/
theorem slotValue_unityVec : ∀ i, slotValue (zeroVec.set 0 1) i = if i = 0 then 1 else 0 :=
  slotValue_eq_of (by decide) fun i _ => if_neg (by omega)

/-- A multiplicity in a byte is at most 7, since `2 ^ 8` is no byte (41_factorizer.md R104, R105). -/
theorem factorization_le_seven {n : Nat} (pos : 0 < n) (byte : n ≤ 255) (p : Nat) : n.factorization p ≤ 7 := by
  by_cases prime : p.Prime
  · have power : 2 ^ n.factorization p < 2 ^ 8 :=
      calc 2 ^ n.factorization p ≤ p ^ n.factorization p := Nat.pow_le_pow_left prime.two_le _
        _ ≤ n := Nat.ordProj_le p pos.ne'
        _ < 2 ^ 8 := by omega
    exact Nat.le_of_lt_succ ((Nat.pow_lt_pow_iff_right (by decide)).mp power)
  · rw [Nat.factorization_eq_zero_of_not_prime n prime]
    exact Nat.zero_le 7

/-- The slots of a swept byte in order: the unity slot 0, then the multiplicities (41_factorizer.md R102). -/
theorem slotsOfSweep_toList {n : Nat} (pos : 0 < n) (byte : n ≤ 255) :
    (slotsOfSweep 0 n).toList = 0 :: primeTable.map fun p => BitVec.ofNat 8 (n.factorization p.toNat) := by
  rw [← sweep_primeTable_counts pos byte]
  rfl

/-- Each slot of a swept byte is the multiplicity of the slot's prime (41_factorizer.md R106); the unity slot and a number that is no
slot have the factor 1 and the value 0. -/
theorem slotValue_factors (h : 2 ≤ b.toNat) (i : Nat) :
    slotValue (slotsOfSweep 0 b.toNat) i = b.toNat.factorization (slotFactor i) := by
  rw [slotValue, slotsOfSweep_toList (by omega) (by omega)]
  cases i with
  | zero => rw [slotFactor_of_none rfl, Nat.factorization_one_right]; rfl
  | succ n =>
    rw [List.getD_cons_succ, List.getD_eq_getElem?_getD, List.getElem?_map]
    cases entry : primeTable[n]? with
    | none => rw [slotFactor_of_none (i := n + 1) entry, Nat.factorization_one_right]; rfl
    | some p =>
      have fits := factorization_le_seven (n := b.toNat) (by omega) (by omega) p.toNat
      rw [slotFactor_of_some (i := n + 1) entry, Option.map_some, Option.getD_some, BitVec.toNat_ofNat,
        Nat.mod_eq_of_lt (by omega)]

end Sys2Proof.Machine
end

section
/-! FACT (41_factorizer.md R103, R107): its encoding, that it writes `EV` alone, and that `FactorResidue` is no command's cause. -/

namespace Sys2Proof.Machine

/-- A command of format N: any set bit above its opcode makes the word illegal (30_encoding.md R71, R75). -/
theorem encodedAs_of_decodeN {opcode : Byte} {i : Instr} (format : ∀ w, opcodeField w = opcode → decode w = decodeN w i)
    (plain : opcode ≠ 0x01 ∧ opcode ≠ 0x02 ∧ opcode ≠ 0x03) : EncodedAs opcode fun _ => i := by
  obtain ⟨notB, notS, notF⟩ := plain
  intro w field
  have bits : mbzBits w = w.toNat / 2 ^ 8 := by rw [mbzBits, field, if_neg notB, if_neg notS, if_neg notF]
  have decoded := (format w field).trans (decodeN_eq w i)
  rw [← bits] at decoded
  exact ⟨fun clear => by rw [decoded, if_pos clear], fun set s live => issueWord_illegal (by rw [decoded, if_neg set]) live⟩

/-- FACT on a live block writes the vector `factorize` answers for `B` (41_factorizer.md R103). -/
theorem exec_fact {s : State} {ev : ExpVec} (live : s.err = none) (answer : factorize s.b = .ok ev) :
    exec .fact s = .next (setEv ev s) := (Effect.fact s ev answer).exec_eq live

/-- The vector of byte 12, the worked example (41_factorizer.md R103, R109). -/
def exampleVec : ExpVec := (zeroVec.set 1 2).set 2 1

/-- `factorize` of 12 is the worked example's vector (41_factorizer.md R109). -/
theorem factorize_twelve : factorize 12 = .ok exampleVec := by decide +kernel

/-- The slots of the worked example (41_factorizer.md R109). -/
theorem slotValue_exampleVec : ∀ i, slotValue exampleVec i = if i = 1 then 2 else if i = 2 then 1 else 0 :=
  slotValue_eq_of (by decide) fun i _ => by rw [if_neg (by omega), if_neg (by omega)]

/-- Settles O13: FACT is of format N, `factorize` answers for every byte, and its answer for 12 is the example's. -/
theorem factWritesTheVector : Obligations.FactWritesTheVector := by
  refine ⟨encodedAs_of_decodeN (fun w field => by simp only [decode, field]; rfl) (by decide), fun s live => ?all,
    fun s live holds => ?twelve⟩
  case all =>
    obtain ⟨ev, answer, -⟩ := exists_factorize s.b
    exact ⟨ev, answer, exec_fact live answer⟩
  case twelve =>
    refine ⟨exampleVec, exec_fact live (holds ▸ factorize_twelve), slotValue_exampleVec 1, slotValue_exampleVec 2,
      fun i notTwo notThree => ?_⟩
    rw [slotValue_exampleVec, if_neg notTwo, if_neg notThree]

/-- The decoder raises `AccRange` only (43_fragment_decoder.md R122). -/
theorem toByte_error {q : List Frag} {c : Cause} (h : toByte q = .error c) : c = .accRange := by
  rw [toByte, visitFragments_eq, visitSlots_eq _ _ (by decide) (by decide)] at h
  split at h
  · cases h
  · rename_i raised
    split at raised
    · cases raised; cases h; rfl
    · cases raised

/-- The value of a line raises `AccRange` only (44_text_codec.md R139). -/
theorem evalLine_error {tokens : List Token} {c : Cause} (h : evalLine tokens = .error c) : c = .accRange := by
  unfold evalLine at h
  split at h
  · cases h
  · rw [evalTokens_eq _ _ (by decide) (by decide)] at h
    split at h
    · cases h
    · rename_i raised
      split at raised
      · cases raised; cases h; rfl
      · cases raised

/-- A line raises `Corruption` for its grammar and `AccRange` for its value (44_text_codec.md R142). -/
theorem lineByte_error {line : List Byte} {c : Cause} (h : lineByte line = .error c) : c = .corruption ∨ c = .accRange := by
  rcases parseLine_ok_or_corruption line with ⟨tokens, ok⟩ | corrupt
  · rw [lineByte, ok] at h
    exact .inr (evalLine_error h)
  · rw [lineByte, corrupt] at h
    cases h
    exact .inl rfl

/-- Looking for a line fails with `ReadFailure` only (44_text_codec.md R137). -/
theorem takeLine_fails {ibuf : List Byte} {ist : InputStatus} {c : Cause} (h : takeLine ibuf ist = .fails c) :
    c = .readFailure := by
  unfold takeLine at h
  split at h <;> cases h <;> rfl

/-- Looking for a record fails with `ReadFailure` or `Corruption` (45_binary_codec.md R155). -/
theorem takeRecord_fails {ibuf : List Byte} {ist : InputStatus} {c : Cause} (h : takeRecord ibuf ist = .fails c) :
    c = .readFailure ∨ c = .corruption := by
  cases ibuf with
  | nil => cases ist <;> cases h; exact .inl rfl
  | cons count rest =>
    rw [takeRecord_cons] at h
    split at h
    · cases h
    · cases ist <;> cases h
      · exact .inr rfl
      · exact .inl rfl

/-- Looking for a unit fails with `ReadFailure` or `Corruption`. -/
theorem unitOutcome_fails {p : ParseCommand} {s : State} {c : Cause} (h : unitOutcome p s = .fails c) :
    c = .readFailure ∨ c = .corruption := by
  cases p with
  | tprs => exact .inl (takeLine_fails h)
  | bprs => exact takeRecord_fails h

/-- No effect of a command on a live block raises `FactorResidue` (60_exceptions.md R183). -/
theorem Effect.err_ne_factorResidue {i : Instr} {s t : State} (e : Effect i s t) (live : s.err = none) :
    t.err ≠ some .factorResidue := by
  cases e with
  | factRaises _ c h =>
    obtain ⟨ev, answer, -⟩ := exists_factorize s.b
    rw [answer] at h
    cases h
  | fdecRaises _ c h => simp [toByte_error h]
  | tprsRaises _ n c _ h => rcases lineByte_error h with rfl | rfl <;> simp
  | fails _ p c h => rcases unitOutcome_fails h with rfl | rfl <;> simp
  | _ => simp [live]

/-- Settles O16: the sweep of a byte ends at 1, so the check of R102 never fires and no other command has this cause. -/
theorem factorResidueIsUnreachable : Obligations.FactorResidueIsUnreachable := by
  refine ⟨fun b range => sweep_primeTable_residue (by omega) (by omega), fun b => ?answers,
    fun i s t live h => (exec_effect live h).err_ne_factorResidue live⟩
  obtain ⟨ev, answer, -⟩ := exists_factorize b
  exact ⟨ev, answer⟩

end Sys2Proof.Machine
end

section
/-! The vector of a byte is its factorization (41_factorizer.md R106), and the ranges of its slots (R105). -/

namespace Sys2Proof.Machine

variable {b : Byte} {ev : ExpVec}

/-- The primes of the slots 1 to 54, in order, are the table's (00_scope.md R18). -/
theorem slotFactors_eq_tablePrimes : ((List.range Config.numPrimes).map fun n => slotFactor (n + 1)) = tablePrimes := by
  decide +kernel

/-- The product of the table's primes to their multiplicities in a byte is the byte (41_factorizer.md R106). -/
theorem primeProduct_factorization {n : Nat} (pos : 0 < n) (byte : n ≤ 255) :
    primeProduct (fun i => n.factorization (slotFactor i)) = n :=
  calc primeProduct (fun i => n.factorization (slotFactor i))
    _ = (tablePrimes.map fun p => p ^ n.factorization p).prod := by
      rw [← slotFactors_eq_tablePrimes, List.map_map, primeProduct]
      rfl
    _ = ∏ p ∈ tablePrimes.toFinset, p ^ n.factorization p := (List.prod_toFinset _ tablePrimes_nodup).symm
    _ = n.factorization.prod (· ^ ·) := by
      refine (Finsupp.prod_of_support_subset _ (fun p factor => ?_) _ fun _ _ => pow_zero _).symm
      obtain ⟨prime, divides, -⟩ := Nat.mem_primeFactors.mp factor
      exact List.mem_toFinset.mpr (mem_tablePrimes_of_dvd prime divides pos byte)
    _ = n := Nat.prod_factorization_pow_eq_self pos.ne'

/-- The product of a byte's vector is the byte, and its unity slot is 0 (41_factorizer.md R106). -/
theorem primeProduct_factors (h : 2 ≤ b.toNat) :
    primeProduct (slotValue (slotsOfSweep 0 b.toNat)) = b.toNat ∧ slotValue (slotsOfSweep 0 b.toNat) 0 = 0 := by
  constructor
  · rw [funext (slotValue_factors h), primeProduct_factorization (by omega) (by omega)]
  · rfl

/-- The number a vector stands for: 1 for the unity vector, 0 for the sentinel, otherwise the product (41_factorizer.md R106). -/
def vectorNumber (ev : ExpVec) : Nat :=
  if slotValue ev 0 = 1 then 1 else if primeProduct (slotValue ev) = 1 then 0 else primeProduct (slotValue ev)

/-- An all-zero vector stands for 0 (41_factorizer.md R102). -/
theorem vectorNumber_of_allZero (h : ∀ i, slotValue ev i = 0) : vectorNumber ev = 0 := by
  have product : primeProduct (slotValue ev) = 1 := by simp [primeProduct, h]
  rw [vectorNumber, h 0, if_neg (by decide), if_pos product]

/-- A byte is known from its vector (41_factorizer.md R106). -/
theorem Factorized.vectorNumber_eq (h : Factorized b ev) : vectorNumber ev = b.toNat := by
  cases h with
  | zero => exact vectorNumber_of_allZero slotValue_zeroVec
  | one => rfl
  | factors _ range =>
    obtain ⟨product, unity⟩ := primeProduct_factors range
    rw [vectorNumber, product, unity, if_neg (by decide), if_neg (by omega)]

/-- Settles O14: the multiplicities of the primes multiply up to the byte, and a byte is known from its vector. -/
theorem vectorIsTheFactorization : Obligations.VectorIsTheFactorization := by
  refine ⟨fun b ev h range => ?product, fun ev h => ?zero, fun ev h => ?one, fun b b' ev h h' => ?injective⟩
  case product =>
    cases factorized_of_ok h with
    | zero | one => exact absurd range (by decide)
    | factors => exact primeProduct_factors range
  case zero =>
    cases h
    exact slotValue_zeroVec
  case one =>
    cases h
    exact ⟨slotValue_unityVec 0, fun i prime => (slotValue_unityVec i).trans (if_neg prime)⟩
  case injective =>
    exact BitVec.eq_of_toNat_eq ((factorized_of_ok h).vectorNumber_eq.symm.trans (factorized_of_ok h').vectorNumber_eq)

/-- Every slot of a byte's vector is at most 7 (41_factorizer.md R105). -/
theorem Factorized.slotValue_le (h : Factorized b ev) (i : Nat) : slotValue ev i ≤ 7 := by
  cases h with
  | zero => simp [slotValue_zeroVec]
  | one => rw [slotValue_unityVec]; split <;> decide
  | factors _ range =>
    rw [slotValue_factors range]
    exact factorization_le_seven (by omega) (by omega) _

/-- Of the numbers a byte holds only `2 ^ 7` has a prime seven times: `3 ^ 7` is above 255 (41_factorizer.md R105). -/
theorem eq_of_factorization_eq_seven {n p : Nat} (pos : 0 < n) (byte : n ≤ 255) (seven : n.factorization p = 7) : n = 128 := by
  have prime : p.Prime := by
    by_contra composite
    rw [Nat.factorization_eq_zero_of_not_prime n composite] at seven
    cases seven
  have divides : p ^ 7 ∣ n := seven ▸ Nat.ordProj_dvd n p
  have two : p = 2 := by
    by_contra odd
    have three : 3 ≤ p := by have := prime.two_le; omega
    have := Nat.pow_le_pow_left three 7
    have := Nat.le_of_dvd pos divides
    omega
  subst two
  omega

/-- A slot is 7 exactly for byte 128 (41_factorizer.md R105). -/
theorem Factorized.exists_slotValue_eq_seven_iff (h : Factorized b ev) : (∃ i, slotValue ev i = 7) ↔ b = 128 := by
  cases h with
  | zero => simp [slotValue_zeroVec]
  | one => 
    refine iff_of_false (fun ⟨i, seven⟩ => ?_) (by decide)
    rw [slotValue_unityVec] at seven
    split at seven <;> cases seven
  | factors _ range =>
    constructor
    · rintro ⟨i, seven⟩
      rw [slotValue_factors range] at seven
      exact BitVec.eq_of_toNat_eq (eq_of_factorization_eq_seven (by omega) (by omega) seven)
    · rintro rfl
      refine ⟨1, (slotValue_factors range 1).trans ?_⟩
      change (2 ^ 7).factorization 2 = 7
      rw [Nat.prime_two.factorization_pow, Finsupp.single_eq_same]

/-- The unity slot is 1 exactly for byte 1 (41_factorizer.md R105). -/
theorem Factorized.unity_iff (h : Factorized b ev) : slotValue ev 0 = 1 ↔ b = 1 := by
  cases h with
  | zero => decide
  | one => exact iff_of_true rfl rfl
  | factors _ range =>
    rw [(primeProduct_factors range).2]
    refine iff_of_false (by decide) ?_
    rintro rfl
    exact absurd range (by decide)

/-- The vector is all zero exactly for byte 0 (41_factorizer.md R105). -/
theorem Factorized.allZero_iff (h : Factorized b ev) : (∀ i, slotValue ev i = 0) ↔ b = 0 := by
  constructor
  · intro zero
    exact BitVec.eq_of_toNat_eq (h.vectorNumber_eq.symm.trans (vectorNumber_of_allZero zero))
  · rintro rfl
    cases h with
    | zero => exact slotValue_zeroVec
    | factors _ range => exact absurd range (by decide)

/-- A strictly ascending list of numbers from `k` up multiplies to at least the product of the first numbers from `k` up. -/
theorem ascFactorial_length_le_prod {k : Nat} {l : List Nat} (ascending : l.Pairwise (· < ·)) (lower : ∀ x ∈ l, k ≤ x) :
    k.ascFactorial l.length ≤ l.prod := by
  induction l generalizing k with
  | nil => exact le_rfl
  | cons x xs ih =>
    obtain ⟨least, ascending⟩ := List.pairwise_cons.mp ascending
    have first : k ≤ x := lower x List.mem_cons_self
    have rest : (k + 1).ascFactorial xs.length ≤ xs.prod :=
      ih ascending fun y later => Nat.succ_le_of_lt (first.trans_lt (least y later))
    calc k.ascFactorial (xs.length + 1)
      _ = k * (k + 1).ascFactorial xs.length := by rw [Nat.ascFactorial_succ, ← Nat.succ_ascFactorial]
      _ ≤ x * xs.prod := Nat.mul_le_mul first rest
      _ = (x :: xs).prod := List.prod_cons.symm

/-- The primes of `PT` that divide a number, in order. -/
def primesDividing (n : Nat) : List Nat := tablePrimes.filter (· ∣ n)

/-- The members of `primesDividing`. -/
theorem prime_and_dvd_of_mem {n p : Nat} (h : p ∈ primesDividing n) : p.Prime ∧ p ∣ n := by
  obtain ⟨entry, divides⟩ := List.mem_filter.mp h
  exact ⟨(mem_tablePrimes.mp entry).1, of_decide_eq_true divides⟩

/-- No prime that divides a number is listed twice. -/
theorem primesDividing_nodup (n : Nat) : (primesDividing n).Nodup := tablePrimes_nodup.filter _

/-- Different primes that divide a number divide it together. -/
theorem primesDividing_prod_dvd (n : Nat) : (primesDividing n).prod ∣ n := by
  rw [← List.map_id (primesDividing n), ← List.prod_toFinset id (primesDividing_nodup n)]
  exact Finset.prod_primes_dvd n (fun p h => (prime_and_dvd_of_mem (List.mem_toFinset.mp h)).1.prime)
    fun p h => (prime_and_dvd_of_mem (List.mem_toFinset.mp h)).2

/-- At most four primes divide a byte: five different ones multiply to `6!` or more (41_factorizer.md R105). -/
theorem primesDividing_length_le {n : Nat} (pos : 0 < n) (byte : n ≤ 255) : (primesDividing n).length ≤ 4 := by
  have small : Nat.factorial (1 + (primesDividing n).length) ≤ 255 :=
    calc Nat.factorial (1 + (primesDividing n).length)
      _ = Nat.ascFactorial 2 (primesDividing n).length := by
        rw [← Nat.factorial_mul_ascFactorial, Nat.factorial_one, Nat.one_mul]
      _ ≤ (primesDividing n).prod :=
        ascFactorial_length_le_prod (tablePrimes_pairwise.filter _) fun p h => (prime_and_dvd_of_mem h).1.two_le
      _ ≤ n := Nat.le_of_dvd pos (primesDividing_prod_dvd n)
      _ ≤ 255 := byte
  by_contra five
  have large : Nat.factorial 6 ≤ 255 := (Nat.factorial_le (by omega)).trans small
  exact absurd large (by decide)

/-- The non-zero slots of a swept byte are those of the primes that divide it (41_factorizer.md R105). -/
theorem nonZero_slotsOfSweep {n : Nat} (pos : 0 < n) (byte : n ≤ 255) :
    ((slotsOfSweep 0 n).toList.filter (· ≠ 0)).length = (primesDividing n).length := by
  rw [slotsOfSweep_toList pos byte, List.filter_cons_of_neg (by decide), primesDividing, tablePrimes, List.filter_map,
    List.filter_map, List.length_map, List.length_map]
  refine congrArg List.length (List.filter_congr fun p entry => ?_)
  have prime := prime_of_mem_primeTable entry
  have fits := factorization_le_seven pos byte p.toNat
  simp only [Function.comp_apply, decide_eq_decide, prime.dvd_iff_one_le_factorization pos.ne']
  bv_omega

/-- At most four slots of a byte's vector are not 0 (41_factorizer.md R105). -/
theorem Factorized.nonZero_length_le (h : Factorized b ev) : (ev.toList.filter (· ≠ 0)).length ≤ 4 := by
  cases h with
  | zero | one => decide +kernel
  | factors _ range =>
    rw [nonZero_slotsOfSweep (by omega) (by omega)]
    exact primesDividing_length_le (by omega) (by omega)

/-- Settles O15: the bounds of multiplicities and of the number of primes, and 210 with its four primes. -/
theorem vectorRanges : Obligations.VectorRanges := by
  refine ⟨fun b ev h => (factorized_of_ok h).slotValue_le, fun b ev h => (factorized_of_ok h).exists_slotValue_eq_seven_iff,
    fun b ev h => (factorized_of_ok h).nonZero_length_le, fun ev h => ?four, fun b ev h => (factorized_of_ok h).unity_iff,
    fun b ev h => (factorized_of_ok h).allZero_iff⟩
  cases factorized_of_ok h with
  | factors =>
    rw [nonZero_slotsOfSweep (by decide) (by decide)]
    decide +kernel

end Sys2Proof.Machine
end

section
/-! What `toFragments` answers, said in the slots' values (42_fragment_encoder.md R113, R115). -/

namespace Sys2Proof.Machine

variable {v w : ExpVec} {f : Frag} {i j n : Nat}

/-- The value of a slot is the vector's entry. -/
theorem slotValue_of_lt (v : ExpVec) (slot : i < 55) : slotValue v i = v[i].toNat := by
  simp [slotValue, slot]

/-- Two vectors with the same slot values are the same vector. -/
theorem eq_of_slotValue_eq (h : ∀ i, slotValue v i = slotValue w i) : v = w := by
  refine Vector.ext fun i slot => BitVec.eq_of_toNat_eq ?_
  rw [← slotValue_of_lt v slot, h i, slotValue_of_lt w slot]

/-- A number bounds the largest slot when it bounds every slot. -/
theorem maxSlot_le_iff : maxSlot v.toList ≤ n ↔ ∀ i, slotValue v i ≤ n := by
  constructor
  · intro bound i
    by_cases slot : i < 55
    · have mem : v[i] ∈ v.toList := Vector.mem_toList_iff.mpr (Vector.getElem_mem slot)
      exact slotValue_of_lt v slot ▸ (le_maxSlot mem).trans bound
    · exact slotValue_ge v (Nat.le_of_not_lt slot) ▸ Nat.zero_le n
  · intro bound
    refine List.max_le_of_forall_le _ n fun x mem => ?_
    obtain ⟨y, entry, rfl⟩ := List.mem_map.mp mem
    obtain ⟨i, slot, rfl⟩ := Vector.getElem_of_mem (Vector.mem_toList_iff.mp entry)
    exact slotValue_of_lt v slot ▸ bound i

/-- A vector is the all-zero one when its largest slot is 0. -/
theorem maxSlot_eq_zero_iff : maxSlot v.toList = 0 ↔ v = zeroVec := by
  rw [← Nat.le_zero, maxSlot_le_iff]
  constructor
  · intro zero
    exact eq_of_slotValue_eq fun i => (Nat.le_zero.mp (zero i)).trans (slotValue_zeroVec i).symm
  · rintro rfl i
    exact (slotValue_zeroVec i).le

/-- The number of fragments (42_fragment_encoder.md R113). -/
theorem toFragments_length (v : ExpVec) : (toFragments v).length = max 1 (maxSlot v.toList) := by
  rw [toFragments_eq_layers, List.length_map, List.length_range]

/-- There is at least one fragment (42_fragment_encoder.md R113). -/
theorem one_le_toFragments_length (v : ExpVec) : 1 ≤ (toFragments v).length := by
  rw [toFragments_length]
  exact Nat.le_max_left _ _

/-- A positive number bounds the fragments when it bounds every slot (42_fragment_encoder.md R113). -/
theorem toFragments_length_le_iff (pos : 1 ≤ n) : (toFragments v).length ≤ n ↔ ∀ i, slotValue v i ≤ n := by
  rw [toFragments_length, Nat.max_le, maxSlot_le_iff, and_iff_right pos]

/-- Fragment `j` is layer `j` of the vector (42_fragment_encoder.md R115). -/
theorem eq_layer_of_getElem? (h : (toFragments v)[j]? = some f) : f = layer v.toList j := by
  rw [toFragments_eq_layers, List.getElem?_map, Option.map_eq_some_iff] at h
  obtain ⟨k, entry, rfl⟩ := h
  obtain ⟨-, rfl⟩ := List.getElem?_eq_some_iff.mp entry
  rw [List.getElem_range]

/-- Bit `i` of fragment `j` says `j < v[i]` (42_fragment_encoder.md R115). -/
theorem getLsbD_iff_of_getElem? (h : (toFragments v)[j]? = some f) (i : Nat) : f.getLsbD i = true ↔ j < slotValue v i := by
  rw [eq_layer_of_getElem? h, layer_getLsbD, decide_eq_true_iff]

/-- A layer is zero from the largest slot on (42_fragment_encoder.md R115). -/
theorem layer_eq_zero_iff : layer v.toList j = 0 ↔ maxSlot v.toList ≤ j := by
  have bit (i : Nat) : (layer v.toList j).getLsbD i = false ↔ slotValue v i ≤ j := by
    rw [layer_getLsbD, decide_eq_false_iff_not, Nat.not_lt]
  rw [maxSlot_le_iff]
  constructor
  · intro zero i
    rw [← bit, zero]
    exact BitVec.getLsbD_zero
  · intro bound
    exact BitVec.eq_of_getLsbD_eq fun i _ => ((bit i).mpr (bound i)).trans BitVec.getLsbD_zero.symm

/-- The last fragment is zero only for the all-zero vector (42_fragment_encoder.md R115). -/
theorem getLast?_eq_zero_iff (h : (toFragments v).getLast? = some f) : f = 0 ↔ v = zeroVec := by
  rw [List.getLast?_eq_getElem?, toFragments_length] at h
  rw [eq_layer_of_getElem? h, layer_eq_zero_iff, ← maxSlot_eq_zero_iff]
  omega

/-- How many of the numbers below `n` are also below `k`. -/
theorem countP_range_lt (n k : Nat) : (List.range n).countP (fun j => decide (j < k)) = min n k := by
  induction n with
  | zero => simp
  | succ n ih =>
    rw [List.range_succ, List.countP_append, ih, List.countP_singleton]
    by_cases below : n < k
    · rw [if_pos (decide_eq_true below)]; omega
    · rw [if_neg (by simpa using below)]; omega

/-- Bit `i` is set in `v[i]` fragments (42_fragment_encoder.md R115). -/
theorem bitCount_toFragments (v : ExpVec) (i : Nat) : bitCount (toFragments v) i = slotValue v i := by
  have below : slotValue v i ≤ max 1 (maxSlot v.toList) := le_max_of_le_right (maxSlot_le_iff.mp le_rfl i)
  calc bitCount (toFragments v) i
    _ = (List.range (max 1 (maxSlot v.toList))).countP fun j => (layer v.toList j).getLsbD i := by
      rw [bitCount, toFragments_eq_layers, List.countP_map]
      rfl
    _ = min (max 1 (maxSlot v.toList)) (slotValue v i) := by simp only [layer_getLsbD, countP_range_lt]
    _ = slotValue v i := min_eq_right below

/-- Settles O18: one fragment for each unit of the largest slot. -/
theorem fragmentCountIsTheLargestSlot : Obligations.FragmentCountIsTheLargestSlot := fun v =>
  ⟨toFragments_length v, one_le_toFragments_length v, toFragments_length_le v⟩

/-- Settles O19: fragment `j` is layer `j`, so its bits and their number are read off the slots. -/
theorem fragmentBitsCountTheSlots : Obligations.FragmentBitsCountTheSlots := by
  refine ⟨fun v j i f h _ => getLsbD_iff_of_getElem? h i, fun v j f g hf hg i => ?nested,
    fun v f h i _ => getLsbD_iff_of_getElem? h i, fun v f => getLast?_eq_zero_iff, fun v i _ => bitCount_toFragments v i⟩
  rw [getLsbD_iff_of_getElem? hf, getLsbD_iff_of_getElem? hg]
  exact Nat.lt_of_succ_lt

end Sys2Proof.Machine
end

section
/-! FENC (42_fragment_encoder.md R110), and how many fragments a factorized byte takes (R114). -/

namespace Sys2Proof.Machine

variable {b : Byte} {ev : ExpVec}

/-- FENC on a live block queues the fragments of `EV` and clears it (42_fragment_encoder.md R110). -/
theorem exec_fenc {s : State} (live : s.err = none) :
    exec .fenc s = .next (setEv zeroVec (setFq (toFragments s.ev) s)) := (Effect.fenc s).exec_eq live

/-- The fragments of the worked example (42_fragment_encoder.md R110). -/
theorem toFragments_exampleVec : toFragments exampleVec = [0x6, 0x2] := by decide +kernel

/-- Settles O17: FENC is of format N and fits the queue, and a vector with the example's slots is the example's. -/
theorem fencQueuesTheFragments : Obligations.FencQueuesTheFragments := by
  refine ⟨encodedAs_of_decodeN (fun w field => by simp only [decode, field]; rfl) (by decide), fun s => exec_fenc,
    toFragments_length_le, fun s live slots => ?twelve⟩
  have vector : s.ev = exampleVec := eq_of_slotValue_eq fun i => (slots i).trans (slotValue_exampleVec i).symm
  rw [exec_fenc live, vector, toFragments_exampleVec]
  rfl

/-- No slot of the vector of 0, 1 or a square-free byte is above 1 (42_fragment_encoder.md R114). -/
theorem Factorized.slotValue_le_one (h : Factorized b ev) (flat : b = 0 ∨ b = 1 ∨ Squarefree b.toNat) (i : Nat) :
    slotValue ev i ≤ 1 := by
  cases h with
  | zero => exact (slotValue_zeroVec i).trans_le zero_le_one
  | one => rw [slotValue_unityVec]; split <;> decide
  | factors _ range =>
    rw [slotValue_factors range]
    rcases flat with rfl | rfl | free
    · exact absurd range (by decide)
    · exact absurd range (by decide)
    · exact free.natFactorization_le_one _

/-- A byte takes seven fragments only when it is 128 (42_fragment_encoder.md R114). -/
theorem Factorized.length_eq_seven_iff (h : Factorized b ev) : (toFragments ev).length = 7 ↔ b = 128 := by
  have atMost : (toFragments ev).length ≤ 7 := (toFragments_length_le_iff (by decide)).mpr h.slotValue_le
  calc (toFragments ev).length = 7
    _ ↔ ¬ (toFragments ev).length ≤ 6 := by omega
    _ ↔ ∃ i, ¬ slotValue ev i ≤ 6 := by rw [toFragments_length_le_iff (by decide), not_forall]
    _ ↔ ∃ i, slotValue ev i = 7 := exists_congr fun i => by have := h.slotValue_le i; omega
    _ ↔ b = 128 := h.exists_slotValue_eq_seven_iff

/-- `factorize` of 128 is seven times the prime 2 (42_fragment_encoder.md R114). -/
theorem factorize_oneHundredTwentyEight : factorize 128 = .ok (zeroVec.set 1 7) := by decide +kernel

/-- Settles O20: the bounds are those of the slots of a byte's vector, and the fragments of 128 are computed. -/
theorem factorizedBytesTakeOneToSevenFragments : Obligations.FactorizedBytesTakeOneToSevenFragments := by
  refine ⟨fun b ev h => ?byte, fun ev h => ?power⟩
  case byte =>
    have vector := factorized_of_ok h
    exact ⟨one_le_toFragments_length ev, (toFragments_length_le_iff (by decide)).mpr vector.slotValue_le,
      vector.length_eq_seven_iff, fun flat =>
        ((toFragments_length_le_iff le_rfl).mpr (vector.slotValue_le_one flat)).antisymm (one_le_toFragments_length ev)⟩
  case power =>
    cases factorize_oneHundredTwentyEight.symm.trans h
    decide +kernel

end Sys2Proof.Machine
end

section
/-! What `toByte` answers, said once (43_fragment_decoder.md R123): the product of the primes of all set bits, checked once at the
end, whatever order the bits are visited in. -/

namespace Sys2Proof.Machine

variable {q q' : List Frag}

/-- The largest prime of the table is 251 (41_factorizer.md R101). -/
theorem primeTable_le : ∀ p ∈ primeTable, p.toNat ≤ 251 := by decide

/-- Settles O23: an accumulator up to 255 and a prime up to 251 give a product of 16 bits. -/
theorem checkedProductNeverWraps : Obligations.CheckedProductNeverWraps := by
  intro acc p _ small entry
  have product : acc.toNat * p.toNat ≤ 255 * 251 := Nat.mul_le_mul small (primeTable_le p entry)
  rw [mulChecked_eq acc p small]
  refine ⟨product, fun above => if_pos above, fun fits => ⟨_, if_neg (Nat.not_lt.mpr fits), ?_⟩⟩
  rw [BitVec.toNat_ofNat, Nat.mod_eq_of_lt (by omega)]

/-- Everything `toByte` can answer: `AccRange`, 0 for no set bit, or the product (43_fragment_decoder.md R123). -/
theorem toByte_eq (q : List Frag) :
    toByte q = if 255 < primeProduct (bitCount q) then .error .accRange
      else .ok (if q.flatMap setSlots = [] then 0 else BitVec.ofNat 8 (primeProduct (bitCount q))) := by
  have product : ((q.flatMap setSlots).map slotFactor).prod = primeProduct (bitCount q) :=
    (prod_flatMap_setSlots q).trans (prod_slots_eq_primeProduct _)
  have start : (1 : Acc).toNat = 1 := rfl
  rw [toByte, visitFragments_eq, visitSlots_eq _ _ (by decide) (by decide)]
  simp only [start, Nat.one_mul, product, Bool.false_or]
  by_cases above : 255 < primeProduct (bitCount q)
  · simp only [if_pos above]
  · by_cases clear : q.flatMap setSlots = []
    · simp [if_neg above, clear]
    · simp [if_neg above, clear, BitVec.setWidth_ofNat_of_le]

/-- A product above 255 raises `AccRange` (43_fragment_decoder.md R123). -/
theorem toByte_accRange (above : 255 < primeProduct (bitCount q)) : toByte q = .error .accRange := by
  rw [toByte_eq, if_pos above]

/-- With some bit set at positions 0 to 54, a product that fits a byte is the answer (43_fragment_decoder.md R123). -/
theorem toByte_product (fits : primeProduct (bitCount q) ≤ 255) (bit : ∃ i, i ≤ 54 ∧ bitCount q i ≠ 0) :
    toByte q = .ok (BitVec.ofNat 8 (primeProduct (bitCount q))) := by
  obtain ⟨i, slot, set⟩ := bit
  have observed : q.flatMap setSlots ≠ [] := fun clear => set ((flatMap_setSlots_eq_nil q).mp clear i slot)
  rw [toByte_eq, if_neg (Nat.not_lt.mpr fits), if_neg observed]

/-- With no bit set at positions 0 to 54 the answer is 0 (43_fragment_decoder.md R124). -/
theorem toByte_no_bit (clear : ∀ i, i ≤ 54 → bitCount q i = 0) : toByte q = .ok 0 :=
  toByte_congr (q' := []) ((flatMap_setSlots_eq_nil q).mpr clear)

/-- The set bits may be visited in any order (43_fragment_decoder.md R123). -/
theorem visitSlots_perm {d : DecodeState} {is js : List Nat} (pos : 1 ≤ d.acc.toNat) (small : d.acc.toNat ≤ 255)
    (perm : is.Perm js) : is.foldlM visitSlot d = js.foldlM visitSlot d := by
  rw [visitSlots_eq is d small pos, visitSlots_eq js d small pos, (perm.map slotFactor).prod_eq, perm.isEmpty_eq]

/-- The fragments may stand in any order: their set bits are the same (43_fragment_decoder.md R123). -/
theorem toByte_perm (perm : q.Perm q') : toByte q = toByte q' := by
  rw [toByte, toByte, visitFragments_eq, visitFragments_eq,
    visitSlots_perm (by decide) (by decide) (perm.flatMap_right setSlots)]

/-- Settles O22: the three answers of the closed form, and any order of fragments or bits. -/
theorem decodingIsTheProductInAnyOrder : Obligations.DecodingIsTheProductInAnyOrder :=
  ⟨fun _ => toByte_accRange, fun _ => toByte_product, fun _ => toByte_no_bit, fun _ _ => toByte_perm,
    fun _ _ _ => visitSlots_perm⟩

end Sys2Proof.Machine
end

section
/-! FDEC (43_fragment_decoder.md R120), and the way of a byte through FACT, FENC and FDEC back to itself (R125). -/

namespace Sys2Proof.Machine

variable {s : State} {b v : Byte} {ev : ExpVec}

/-- FDEC on a live block writes the byte its queue decodes to (43_fragment_decoder.md R120). -/
theorem exec_fdec (live : s.err = none) (answer : toByte s.fq = .ok v) : exec .fdec s = .next (setB v s) :=
  (Effect.fdec s v answer).exec_eq live

/-- The worked example's queue decodes to 12 (43_fragment_decoder.md R120). -/
theorem toByte_twelve : toByte [0x6, 0x2] = .ok 12 := by decide +kernel

/-- Settles O21: FDEC is of format N, and its next state is that of `toByte`'s closed form. -/
theorem fdecWritesTheProduct : Obligations.FdecWritesTheProduct :=
  ⟨encodedAs_of_decodeN (fun w field => by simp only [decode, field]; rfl) (by decide),
    fun s live above => (Effect.fdecRaises s _ (toByte_accRange above)).exec_eq live,
    fun _ live fits bit => exec_fdec live (toByte_product fits bit),
    fun _ live clear => exec_fdec live (toByte_no_bit clear),
    fun _ live queue => exec_fdec live (queue ▸ toByte_twelve)⟩

/-- A product other than 1 has some bit set at positions 0 to 54 (43_fragment_decoder.md R123). -/
theorem exists_set_of_primeProduct_ne_one {c : Nat → Nat} (factor : primeProduct c ≠ 1) : ∃ i, i ≤ 54 ∧ c i ≠ 0 := by
  by_contra clear
  push Not at clear
  refine factor (List.prod_eq_one fun x mem => ?_)
  obtain ⟨n, slot, rfl⟩ := List.mem_map.mp mem
  rw [clear (n + 1) (List.mem_range.mp slot), pow_zero]

/-- The fragments of a byte's vector decode to the byte (43_fragment_decoder.md R125). -/
theorem Factorized.toByte_toFragments (h : Factorized b ev) : toByte (toFragments ev) = .ok b := by
  have counts : bitCount (toFragments ev) = slotValue ev := funext (bitCount_toFragments ev)
  cases h with
  | zero => exact toByte_no_bit fun i _ => counts ▸ slotValue_zeroVec i
  | one => decide +kernel
  | factors _ range =>
    have product : primeProduct (bitCount (toFragments (slotsOfSweep 0 b.toNat))) = b.toNat :=
      counts ▸ (primeProduct_factors range).1
    rw [toByte_product (by omega) (exists_set_of_primeProduct_ne_one (by omega)), product, BitVec.ofNat_toNat, BitVec.setWidth_eq]

/-- Settles O39: the four commands in turn, with the vector and the fragments of the byte between them. -/
theorem binaryRoundTrip : Obligations.BinaryRoundTrip := by
  intro b s live
  obtain ⟨ev, answer, vector⟩ := exists_factorize b
  exact ⟨_, _, _, _, (Effect.ldb s b).exec_eq live, exec_fact live answer, exec_fenc live,
    exec_fdec live vector.toByte_toFragments, rfl, live⟩

end Sys2Proof.Machine
end

section
/-! TFMT (44_text_codec.md R130), and the line of a vector as the tokens of its non-zero slots (R131, R132). -/

namespace Sys2Proof.Machine

variable {v : ExpVec} {t : Token} {tokens : List Token}

/-- The tokens of a vector: one for each non-zero slot, indexes ascending (44_text_codec.md R131). -/
def lineTokens (v : ExpVec) : List Token :=
  ((List.finRange Config.numSlots).filter fun i : Fin _ => 0 < slotValue v i).map fun i => ⟨i, slotValue v i⟩

/-- A token's bytes as TFMT writes them (30_encoding.md R85). -/
def tokenBytes (t : Token) : List Byte := formatToken t.index.val t.count

/-- The line of a vector without its terminator (44_text_codec.md R131). -/
def lineBody (v : ExpVec) : List Byte := [semicolon].intercalate ((lineTokens v).map tokenBytes)

/-- The slots of a vector in order. -/
theorem toList_eq_map_range (v : ExpVec) : v.toList = (List.range' 0 55).map fun i => v.toList.getD i 0 := by
  refine List.ext_getElem (by simp) fun i inList _ => ?_
  rw [List.getElem_map, List.getElem_range', Nat.zero_add, Nat.one_mul, List.getD_eq_getElem _ _ inList]

/-- The non-zero slots of a list given slot by slot. -/
theorem nonZeroSlots_map_range' (f : Nat → Byte) (k n : Nat) :
    nonZeroSlots k ((List.range' k n).map f) =
      ((List.range' k n).filter fun i => 0 < (f i).toNat).map fun i => (i, (f i).toNat) := by
  induction n generalizing k with
  | zero => rfl
  | succ n ih =>
    rw [List.range'_succ, List.map_cons, nonZeroSlots, ih, List.filter_cons]
    by_cases positive : 0 < (f k).toNat <;> simp [positive]

/-- A list over a vector's tokens, as one over the slot numbers (44_text_codec.md R131). -/
theorem map_lineTokens {α : Type} (f : Nat → Nat → α) (v : ExpVec) :
    (lineTokens v).map (fun t => f t.index t.count) =
      ((List.range 55).filter fun i => 0 < slotValue v i).map fun i => f i (slotValue v i) := by
  rw [← List.map_coe_finRange_eq_range, List.filter_map, List.map_map, lineTokens, List.map_map]
  rfl

/-- The formatter's non-zero slots are the vector's tokens (44_text_codec.md R131). -/
theorem nonZeroSlots_eq_lineTokens (v : ExpVec) :
    nonZeroSlots 0 v.toList = (lineTokens v).map fun t => (t.index.val, t.count) := by
  rw [map_lineTokens Prod.mk, toList_eq_map_range, nonZeroSlots_map_range', ← List.range_eq_range']
  rfl

/-- The line of a vector is its body and one terminator (44_text_codec.md R131). -/
theorem formatLine_eq (v : ExpVec) : formatLine v = lineBody v ++ [0x0A] := by
  rw [formatLine, nonZeroSlots_eq_lineTokens, List.map_map]
  rfl

/-- Which tokens a vector has (44_text_codec.md R132). -/
theorem mem_lineTokens : t ∈ lineTokens v ↔ slotValue v t.index = t.count ∧ 0 < t.count := by
  constructor
  · intro mem
    obtain ⟨i, positive, rfl⟩ := List.mem_map.mp mem
    exact ⟨rfl, of_decide_eq_true (List.mem_filter.mp positive).2⟩
  · rintro ⟨value, positive⟩
    refine List.mem_map.mpr ⟨t.index, List.mem_filter.mpr ⟨List.mem_finRange _, ?_⟩, ?_⟩
    · rw [value]; exact decide_eq_true positive
    · rw [value]

/-- The indexes of a vector's tokens strictly ascend (44_text_codec.md R132). -/
theorem lineTokens_pairwise (v : ExpVec) : ((lineTokens v).map fun t => t.index.val).Pairwise (· < ·) := by
  rw [map_lineTokens fun i _ => i, List.map_id']
  exact List.pairwise_lt_range.filter _

/-- A slot with its value is a token of the vector exactly when the value is not 0 (44_text_codec.md R132). -/
theorem exists_token_iff (v : ExpVec) (i c : Nat) :
    (∃ t ∈ lineTokens v, t.index.val = i ∧ t.count = c) ↔ slotValue v i = c ∧ 0 < c := by
  constructor
  · rintro ⟨t, mem, rfl, rfl⟩
    exact mem_lineTokens.mp mem
  · rintro ⟨value, positive⟩
    have slot : i < 55 := by
      by_contra above
      rw [slotValue_ge v (Nat.le_of_not_lt above)] at value
      omega
    exact ⟨⟨⟨i, slot⟩, c⟩, mem_lineTokens.mpr ⟨value, positive⟩, rfl, rfl⟩

/-- The bytes TFMT writes for a token are a token of the grammar (30_encoding.md R85, R86). -/
theorem isToken_tokenBytes (positive : 1 ≤ t.count) : IsToken (tokenBytes t) t :=
  ⟨dec t.index, dec t.count, List.append_assoc .., dec_isNumber _, dec_isNumber _, positive⟩

/-- The line of a vector is of the grammar, with the vector's tokens (44_text_codec.md R132). -/
theorem isLine_lineBody (v : ExpVec) : IsLine (lineBody v) (lineTokens v) := by
  by_cases empty : lineTokens v = []
  · exact .inl ⟨by rw [lineBody, empty]; rfl, empty⟩
  · refine .inr ⟨empty, _, rfl, List.forall₂_map_left_iff.mpr (List.forall₂_same.mpr fun t mem => ?_)⟩
    exact isToken_tokenBytes (mem_lineTokens.mp mem).2

/-- No byte of a line of the grammar is the terminator (30_encoding.md R86, R88). -/
theorem IsLine.free {line : List Byte} (h : IsLine line tokens) : (0x0A : Byte) ∉ line := by
  intro mem
  rcases h.byte mem with digit | colon | semicolon
  · exact digit.ne_marks.2.2 rfl
  · exact absurd colon (by decide)
  · exact absurd semicolon (by decide)

/-- The all-zero vector has no token (44_text_codec.md R132). -/
theorem lineTokens_zeroVec : lineTokens zeroVec = [] := by
  refine List.eq_nil_iff_forall_not_mem.mpr fun t mem => ?_
  obtain ⟨value, positive⟩ := mem_lineTokens.mp mem
  rw [slotValue_zeroVec] at value
  omega

/-- The line of the all-zero vector is the terminator alone (44_text_codec.md R132). -/
theorem formatLine_zeroVec : formatLine zeroVec = [0x0A] := by
  rw [formatLine_eq, lineBody, lineTokens_zeroVec]
  rfl

/-- TFMT on a live block appends the line of `EV` (44_text_codec.md R130). -/
theorem exec_tfmt {s : State} (live : s.err = none) : exec .tfmt s = .next (outPut (formatLine s.ev) s) :=
  (Effect.tfmt s).exec_eq live

/-- The line of the worked example (44_text_codec.md R130). -/
theorem formatLine_exampleVec : formatLine exampleVec = [0x31, 0x3A, 0x32, 0x3B, 0x32, 0x3A, 0x31, 0x0A] := by decide +kernel

/-- Settles O25: TFMT is of format N, and a vector with the example's slots is the example's. -/
theorem tfmtAppendsTheLine : Obligations.TfmtAppendsTheLine := by
  refine ⟨encodedAs_of_decodeN (fun w field => by simp only [decode, field]; rfl) (by decide), fun s => exec_tfmt,
    fun s live slots => ?twelve⟩
  have vector : s.ev = exampleVec := eq_of_slotValue_eq fun i => (slots i).trans (slotValue_exampleVec i).symm
  rw [← formatLine_exampleVec, ← vector]
  exact exec_tfmt live

/-- Settles O26: the line is its body, a line of the grammar with the vector's tokens, and the terminator. -/
theorem formattedLineLaws : Obligations.FormattedLineLaws :=
  ⟨fun v => ⟨lineBody v, lineTokens v, formatLine_eq v, (isLine_lineBody v).free, isLine_lineBody v, lineTokens_pairwise v,
    fun _ mem => (mem_lineTokens.mp mem).2, exists_token_iff v⟩, formatLine_zeroVec⟩

end Sys2Proof.Machine
end

section
/-! The length of a line (44_text_codec.md R134): the digits of an index and a count, a `:` for each token, and a `;` or the
terminator after it. -/

namespace Sys2Proof.Machine

variable {b : Byte} {ev v : ExpVec} {t : Token} {n p k : Nat}

/-- A number below `10 ^ (k + 1)` is written with at most `k + 1` digits (00_scope.md R10). -/
theorem decOnto_length_le (fuel : Nat) (tail : List Byte) (small : n < 10 ^ (k + 1)) :
    (decOnto fuel n tail).length ≤ k + 1 + tail.length := by
  induction k generalizing fuel n tail with
  | zero =>
    cases fuel with
    | zero => simp [decOnto]
    | succ fuel => rw [decOnto, if_pos (by simpa using small), List.length_cons]; omega
  | succ k ih =>
    cases fuel with
    | zero => simp [decOnto]
    | succ fuel =>
      rw [decOnto]
      split
      · rw [List.length_cons]; omega
      · have shorter := ih fuel (digitChar (n % 10) :: tail) (Nat.div_lt_of_lt_mul (by rwa [← Nat.pow_succ']))
        rw [List.length_cons] at shorter
        omega

/-- The digits of a number below `10 ^ (k + 1)` are at most `k + 1` (00_scope.md R10). -/
theorem dec_length_le (small : n < 10 ^ (k + 1)) : (dec n).length ≤ k + 1 := decOnto_length_le (n + 1) [] small

/-- A token is the digits of its two numbers and a `:` (30_encoding.md R85). -/
theorem tokenBytes_length (t : Token) : (tokenBytes t).length = (dec t.index).length + 1 + (dec t.count).length := by
  rw [tokenBytes, formatToken, List.length_append, List.length_append, List.length_singleton]

/-- Joined parts with one more byte after them are as long as the parts with a byte after each. -/
theorem length_intercalate_succ (sep : Byte) {parts : List (List Byte)} (nonempty : parts ≠ []) :
    ([sep].intercalate parts).length + 1 = (parts.map fun p => p.length + 1).sum := by
  induction parts with
  | nil => exact absurd rfl nonempty
  | cons p ps ih =>
    by_cases last : ps = []
    · subst last
      simp
    · rw [intercalate_sep_cons sep p last, List.length_append, List.length_cons, ih last, List.map_cons, List.sum_cons]
      omega

/-- The length of a line: the terminator alone, or a `;` or the terminator after each token (44_text_codec.md R134). -/
theorem formatLine_length (v : ExpVec) :
    (formatLine v).length = max 1 ((lineTokens v).map fun t => (tokenBytes t).length + 1).sum := by
  rw [formatLine_eq, List.length_append, List.length_singleton, lineBody]
  by_cases empty : lineTokens v = []
  · rw [empty]
    rfl
  · have joined := length_intercalate_succ semicolon (parts := (lineTokens v).map tokenBytes) (by simpa using empty)
    rw [List.map_map] at joined
    rw [joined]
    exact (max_eq_right (joined ▸ Nat.le_add_left 1 _)).symm

/-- The most bytes slot `i` takes in a line, the byte after its token included: one or two digits for the index and three for the
count (44_text_codec.md R134). -/
def slotWidth (i : Nat) : Nat := if i < 10 then 6 else 7

/-- A token of a vector is not longer than its slot allows (44_text_codec.md R134). -/
theorem tokenBytes_length_le_slotWidth (mem : t ∈ lineTokens v) : (tokenBytes t).length + 1 ≤ slotWidth t.index := by
  have slot : t.index.val < 55 := t.index.isLt
  have byte : t.count < 256 := by rw [← (mem_lineTokens.mp mem).1]; exact BitVec.isLt _
  have count : (dec t.count).length ≤ 3 := dec_length_le (by omega)
  rw [tokenBytes_length, slotWidth]
  split
  · have index : (dec t.index).length ≤ 1 := dec_length_le (by omega)
    omega
  · have index : (dec t.index).length ≤ 2 := dec_length_le (by omega)
    omega

/-- A line has at most 375 bytes (44_text_codec.md R134). -/
theorem formatLine_length_le (v : ExpVec) : (formatLine v).length ≤ 375 := by
  have tokens : ((lineTokens v).map fun t => (tokenBytes t).length + 1).sum ≤ 375 :=
    calc ((lineTokens v).map fun t => (tokenBytes t).length + 1).sum
      _ ≤ ((lineTokens v).map fun t => slotWidth t.index).sum := List.sum_le_sum fun t => tokenBytes_length_le_slotWidth
      _ = (((List.range 55).filter fun i => 0 < slotValue v i).map slotWidth).sum :=
        congrArg List.sum (map_lineTokens (fun i _ => slotWidth i) v)
      _ ≤ ((List.range 55).map slotWidth).sum := (List.filter_sublist.map _).sum_le_sum fun _ _ => Nat.zero_le _
      _ = 375 := by decide +kernel
  rw [formatLine_length]
  exact max_le (by decide) tokens

/-- Numbers from 2 on in strictly ascending order multiply to a factorial or more (41_factorizer.md R105). -/
theorem factorial_le_prod {l : List Nat} (ascending : l.Pairwise (· < ·)) (lower : ∀ x ∈ l, 2 ≤ x) :
    Nat.factorial (1 + l.length) ≤ l.prod := by
  rw [← Nat.factorial_mul_ascFactorial, Nat.factorial_one, Nat.one_mul]
  exact ascFactorial_length_le_prod ascending lower

/-- With a prime of 29 or more at most three primes divide a byte: three others multiply to `4!` or more (44_text_codec.md R134). -/
theorem primesDividing_length_le_three (pos : 0 < n) (byte : n ≤ 255) (mem : p ∈ primesDividing n) (large : 29 ≤ p) :
    (primesDividing n).length ≤ 3 := by
  have others : Nat.factorial (1 + ((primesDividing n).erase p).length) ≤ ((primesDividing n).erase p).prod :=
    factorial_le_prod ((tablePrimes_pairwise.filter _).sublist List.erase_sublist)
      fun x other => (prime_and_dvd_of_mem (List.mem_of_mem_erase other)).1.two_le
  have product : 29 * ((primesDividing n).erase p).prod ≤ 255 :=
    calc 29 * ((primesDividing n).erase p).prod
      _ ≤ p * ((primesDividing n).erase p).prod := Nat.mul_le_mul_right _ large
      _ = (primesDividing n).prod := List.prod_erase mem
      _ ≤ n := Nat.le_of_dvd pos (primesDividing_prod_dvd n)
      _ ≤ 255 := byte
  rw [List.length_erase_of_mem mem] at others
  by_contra four
  have least : Nat.factorial 4 ≤ ((primesDividing n).erase p).prod := (Nat.factorial_le (by omega)).trans others
  have twentyFour : Nat.factorial 4 = 24 := rfl
  omega

/-- A prime slot of a byte's vector is not 0 exactly when its prime divides the byte (41_factorizer.md R106). -/
theorem slotValue_factors_pos_iff (range : 2 ≤ b.toNat) {i : Nat} (slot : i < 54) :
    0 < slotValue (slotsOfSweep 0 b.toNat) (i + 1) ↔ slotFactor (i + 1) ∣ b.toNat := by
  have entry : slotFactor (i + 1) ∈ tablePrimes := by
    rw [← slotFactors_eq_tablePrimes]
    exact List.mem_map.mpr ⟨i, List.mem_range.mpr slot, rfl⟩
  rw [slotValue_factors range, (mem_tablePrimes.mp entry).1.dvd_iff_one_le_factorization (by omega), Nat.succ_le_iff]

/-- The primes of the tokens of a vector whose unity slot is 0, by prime slots. -/
theorem slotFactors_lineTokens (unity : slotValue v 0 = 0) : ((lineTokens v).map fun t => slotFactor t.index) =
    ((List.range 54).filter fun i => 0 < slotValue v (i + 1)).map fun i => slotFactor (i + 1) := by
  have slots : List.range 55 = 0 :: (List.range 54).map Nat.succ := List.range_succ_eq_map
  rw [map_lineTokens fun i _ => slotFactor i, slots, List.filter_cons_of_neg (by simp [unity]), List.filter_map, List.map_map]
  rfl

/-- The primes of the tokens of a byte's vector are the primes that divide the byte (41_factorizer.md R106). -/
theorem slotFactors_lineTokens_factors (range : 2 ≤ b.toNat) :
    ((lineTokens (slotsOfSweep 0 b.toNat)).map fun t => slotFactor t.index) = primesDividing b.toNat := by
  rw [slotFactors_lineTokens (primeProduct_factors range).2, primesDividing, ← slotFactors_eq_tablePrimes, List.filter_map]
  refine congrArg _ (List.filter_congr fun i slot => ?_)
  exact decide_eq_decide.mpr (slotValue_factors_pos_iff range (List.mem_range.mp slot))

/-- The prime of a slot with a two-digit index is 29 or more (41_factorizer.md R101). -/
theorem slotFactor_ge_of_two_digits : ∀ i < 55, 10 ≤ i → 29 ≤ slotFactor i := by decide +kernel

/-- A token of a byte's vector, with the byte after it, takes 4 bytes for a one-digit index and 5 for another, since its count has
one digit (44_text_codec.md R134, 41_factorizer.md R105). -/
theorem Factorized.tokenBytes_length_le (h : Factorized b ev) (mem : t ∈ lineTokens ev) :
    (tokenBytes t).length + 1 ≤ 5 ∧ (t.index.val < 10 → (tokenBytes t).length + 1 ≤ 4) := by
  have slot : t.index.val < 55 := t.index.isLt
  have small : t.count ≤ 7 := by rw [← (mem_lineTokens.mp mem).1]; exact h.slotValue_le _
  have count : (dec t.count).length ≤ 1 := dec_length_le (by omega)
  rw [tokenBytes_length]
  refine ⟨?_, fun oneDigit => ?_⟩
  · have index : (dec t.index).length ≤ 2 := dec_length_le (by omega)
    omega
  · have index : (dec t.index).length ≤ 1 := dec_length_le (by omega)
    omega

/-- The tokens of a byte's vector take at most 16 bytes: four with one-digit indexes, or three (44_text_codec.md R134). -/
theorem tokens_length_le_sixteen (range : 2 ≤ b.toNat) :
    ((lineTokens (slotsOfSweep 0 b.toNat)).map fun t => (tokenBytes t).length + 1).sum ≤ 16 := by
  have token (t) (mem : t ∈ lineTokens (slotsOfSweep 0 b.toNat)) := (Factorized.factors b range).tokenBytes_length_le mem
  have number : (lineTokens (slotsOfSweep 0 b.toNat)).length = (primesDividing b.toNat).length := by
    rw [← slotFactors_lineTokens_factors range, List.length_map]
  by_cases oneDigit : ∀ t ∈ lineTokens (slotsOfSweep 0 b.toNat), t.index.val < 10
  · have four := primesDividing_length_le (n := b.toNat) (by omega) (by omega)
    have sum := List.sum_le_card_nsmul _ 4 (List.forall_mem_map.mpr fun t mem => (token t mem).2 (oneDigit t mem))
    rw [List.length_map, number, smul_eq_mul] at sum
    omega
  · push Not at oneDigit
    obtain ⟨t, mem, twoDigits⟩ := oneDigit
    have prime : slotFactor t.index ∈ primesDividing b.toNat := slotFactors_lineTokens_factors range ▸ List.mem_map_of_mem mem
    have three := primesDividing_length_le_three (by omega) (by omega) prime
      (slotFactor_ge_of_two_digits _ t.index.isLt twoDigits)
    have sum := List.sum_le_card_nsmul _ 5 (List.forall_mem_map.mpr fun t mem => (token t mem).1)
    rw [List.length_map, number, smul_eq_mul] at sum
    omega

/-- The line of a byte's vector has at most 16 bytes (44_text_codec.md R134). -/
theorem Factorized.formatLine_length_le (h : Factorized b ev) : (formatLine ev).length ≤ 16 := by
  cases h with
  | zero | one => decide +kernel
  | factors _ range =>
    rw [formatLine_length]
    exact max_le (by decide) (tokens_length_le_sixteen range)

/-- Settles O27: the bounds are those of the slots and of the primes of a byte, and the lines that reach them are computed. -/
theorem formattedLineLength : Obligations.FormattedLineLength := by
  refine ⟨fun v => ⟨?least, formatLine_length_le v⟩, congrArg List.length formatLine_zeroVec, by decide +kernel,
    fun b ev h => (factorized_of_ok h).formatLine_length_le, fun ev h => ?longest⟩
  case least =>
    rw [formatLine_length]
    exact le_max_left _ _
  case longest =>
    cases factorized_of_ok h with
    | factors => decide +kernel

end Sys2Proof.Machine
end

section
/-! The value of a line is the product of its tokens over the naturals (44_text_codec.md R139, R140). -/

namespace Sys2Proof.Machine

variable {tokens tokens' : List Token} {line : List Byte} {count : Nat}

/-- The product of a line's tokens is at least 1 (44_text_codec.md R140). -/
theorem tokenProduct_pos (tokens : List Token) : 1 ≤ tokenProduct tokens :=
  List.one_le_prod (List.forall_mem_map.mpr fun t _ => Nat.one_le_pow _ _ (slotFactor_pos t.index))

/-- The product does not depend on the order of the tokens (44_text_codec.md R139). -/
theorem tokenProduct_perm (perm : tokens.Perm tokens') : tokenProduct tokens = tokenProduct tokens' :=
  (perm.map _).prod_eq

/-- A unity token multiplies by 1 (44_text_codec.md R140). -/
theorem tokenProduct_unity_cons (count : Nat) (tokens : List Token) :
    tokenProduct (⟨0, count⟩ :: tokens) = tokenProduct tokens := by
  have unity : slotFactor (0 : Fin Config.numSlots).val = 1 := slotFactor_of_none rfl
  rw [tokenProduct, List.map_cons, List.prod_cons, unity, Nat.one_pow, Nat.one_mul, tokenProduct]

/-- Everything a line with a token can be worth (44_text_codec.md R139). -/
theorem evalLine_eq (nonempty : tokens ≠ []) :
    evalLine tokens = if 255 < tokenProduct tokens then .error .accRange else .ok (BitVec.ofNat 8 (tokenProduct tokens)) := by
  cases tokens with
  | nil => exact absurd rfl nonempty
  | cons t ts =>
    have start : (1 : Acc).toNat = 1 := rfl
    rw [evalLine, evalTokens_eq _ _ (by decide) (by decide), start, Nat.one_mul]
    by_cases above : 255 < tokenProduct (t :: ts)
    · simp only [if_pos above]
    · simp only [if_neg above, BitVec.setWidth_ofNat_of_le (show 8 ≤ 16 by decide)]

/-- A product above 255 raises `AccRange` (44_text_codec.md R139). -/
theorem evalLine_accRange (nonempty : tokens ≠ []) (above : 255 < tokenProduct tokens) : evalLine tokens = .error .accRange := by
  rw [evalLine_eq nonempty, if_pos above]

/-- A product that fits a byte is the value (44_text_codec.md R139). -/
theorem evalLine_product (nonempty : tokens ≠ []) (fits : tokenProduct tokens ≤ 255) :
    evalLine tokens = .ok (BitVec.ofNat 8 (tokenProduct tokens)) := by
  rw [evalLine_eq nonempty, if_neg (Nat.not_lt.mpr fits)]

/-- The tokens may stand in any order (44_text_codec.md R139). -/
theorem evalLine_perm (perm : tokens.Perm tokens') : evalLine tokens = evalLine tokens' := by
  by_cases empty : tokens = []
  · subst empty
    rw [List.nil_perm.mp perm]
  · rw [evalLine_eq empty, evalLine_eq fun empty' => empty (List.perm_nil.mp (empty' ▸ perm)), tokenProduct_perm perm]

/-- Settles O29: the checked product is the product over the naturals, which no order of the tokens changes. -/
theorem lineValueIsTheProduct : Obligations.LineValueIsTheProduct :=
  ⟨rfl, fun _ => evalLine_accRange, fun _ => evalLine_product, fun _ _ => evalLine_perm⟩

/-- A line with a token is not worth 0, since its product is 1 to 255 or does not fit (44_text_codec.md R140). -/
theorem evalLine_ne_zero (nonempty : tokens ≠ []) : evalLine tokens ≠ .ok 0 := by
  have positive := tokenProduct_pos tokens
  intro zero
  by_cases above : 255 < tokenProduct tokens
  · rw [evalLine_accRange nonempty above] at zero
    cases zero
  · rw [evalLine_product nonempty (Nat.le_of_not_lt above), Except.ok.injEq] at zero
    have value := congrArg BitVec.toNat zero
    rw [BitVec.toNat_ofNat, Nat.mod_eq_of_lt (by omega)] at value
    exact absurd value (Nat.ne_of_gt positive)

/-- A line of the grammar is worth what its tokens are (44_text_codec.md R142). -/
theorem IsLine.lineByte_eq (h : IsLine line tokens) : lineByte line = evalLine tokens := by
  rw [lineByte, (parseLine_iff_isLine line tokens).mpr h]

/-- A line of the grammar without a token is empty (30_encoding.md R86). -/
theorem IsLine.eq_nil (h : IsLine line []) : line = [] := by
  rcases h with ⟨empty, -⟩ | ⟨nonempty, -⟩
  · exact empty
  · exact absurd rfl nonempty

/-- The value 0 comes from the empty line only (44_text_codec.md R140). -/
theorem lineByte_eq_zero_iff (line : List Byte) : lineByte line = .ok 0 ↔ line = [] := by
  constructor
  · intro zero
    rcases parseLine_ok_or_corruption line with ⟨tokens, ok⟩ | corrupt
    · have isLine := (parseLine_iff_isLine line tokens).mp ok
      have noToken : tokens = [] := by
        by_contra nonempty
        exact evalLine_ne_zero nonempty (isLine.lineByte_eq ▸ zero)
      exact (noToken ▸ isLine).eq_nil
    · rw [lineByte, corrupt] at zero
      cases zero
  · rintro rfl
    rfl

/-- Settles O30: a unity token multiplies by 1, a product is at least 1, and the three examples are computed. -/
theorem unityTokensContributeNothing : Obligations.UnityTokensContributeNothing := by
  refine ⟨fun count => ?alone, fun count tokens nonempty => ?before, lineByte_eq_zero_iff, by decide +kernel, by decide +kernel,
    by decide +kernel⟩
  case alone =>
    have one : tokenProduct [⟨0, count⟩] = 1 := tokenProduct_unity_cons count []
    rw [evalLine_product (List.cons_ne_nil _ _) (by omega), one]
    rfl
  case before => rw [evalLine_eq (List.cons_ne_nil _ _), evalLine_eq nonempty, tokenProduct_unity_cons]

end Sys2Proof.Machine
end

section
/-! TPRS (44_text_codec.md R136): what it does with a complete line, and without one (R137), in the order of R142. -/

namespace Sys2Proof.Machine

variable {s : State} {line rest : List Byte} {tokens : List Token} {v : Byte} {c : Cause}

/-- TPRS on a complete line that has a value writes it and takes the line with its terminator (44_text_codec.md R136). -/
theorem exec_tprs_ok (live : s.err = none) (input : s.ibuf = line ++ 0x0A :: rest) (free : (0x0A : Byte) ∉ line)
    (value : lineByte line = .ok v) : exec .tprs s = .next { s with b := v, ibuf := rest, eos := false } := by
  have found : takeLine s.ibuf s.ist = .found line.length := by rw [input, takeLine_found line rest _ free]
  have taken : lineByte (s.ibuf.take line.length) = .ok v := by rw [input, List.take_left, value]
  have left : s.ibuf.drop (line.length + 1) = rest := by rw [input, List.drop_append, List.drop_of_length_le (by omega)]; simp
  rw [(Effect.tprs s _ v found taken).exec_eq live, ← left]
  rfl

/-- TPRS on a complete line without a value raises what the line's checks give (44_text_codec.md R136, R142). -/
theorem exec_tprs_error (live : s.err = none) (input : s.ibuf = line ++ 0x0A :: rest) (free : (0x0A : Byte) ∉ line)
    (raises : lineByte line = .error c) : exec .tprs s = .next { s with err := some c } := by
  have found : takeLine s.ibuf s.ist = .found line.length := by rw [input, takeLine_found line rest _ free]
  have taken : lineByte (s.ibuf.take line.length) = .error c := by rw [input, List.take_left, raises]
  exact (Effect.tprsRaises s _ c found taken).exec_eq live

/-- TPRS at the clean end of the input sets `STATUS.EOS` (44_text_codec.md R137). -/
theorem exec_tprs_endOfInput (live : s.err = none) (empty : s.ibuf = []) (ended : s.ist = .eos) :
    exec .tprs s = .next { s with eos := true } :=
  (Effect.endOfInput s .tprs (takeLine_endOfInput_iff.mpr ⟨empty, ended⟩)).exec_eq live

/-- TPRS without a complete line holds while the input is open (44_text_codec.md R137, 60_exceptions.md R190). -/
theorem exec_tprs_holds (live : s.err = none) (free : (0x0A : Byte) ∉ s.ibuf) (opened : s.ist = .opened) :
    exec .tprs s = .next { s with held := some .tprs } := by
  have holds : takeLine s.ibuf s.ist = .holds := by rw [takeLine_none _ _ free, opened]
  exact (Effect.holds s .tprs holds).exec_eq live

/-- TPRS without a complete line on a closed input, other than at its clean end, raises `ReadFailure` (44_text_codec.md R137). -/
theorem exec_tprs_readFailure (live : s.err = none) (free : (0x0A : Byte) ∉ s.ibuf) (closed : s.ist ≠ .opened)
    (noEnd : s.ibuf = [] → s.ist = .err) : exec .tprs s = .next { s with err := some .readFailure } := by
  have fails : takeLine s.ibuf s.ist = .fails .readFailure := by
    rw [takeLine_none _ _ free]
    cases ist : s.ist with
    | opened => exact absurd ist closed
    | err => rfl
    | eos => exact if_neg fun empty => nomatch ist.symm.trans (noEnd empty)
  exact (Effect.fails s .tprs _ fails).exec_eq live

/-- A line outside the grammar is `Corruption` (44_text_codec.md R138). -/
theorem lineByte_corruption (outside : ¬ ∃ tokens, IsLine line tokens) : lineByte line = .error .corruption := by
  rw [lineByte, parserAcceptsTheGrammar.2 line outside]

/-- The worked example's line is worth 12 (44_text_codec.md R136). -/
theorem lineByte_twelve : lineByte [0x31, 0x3A, 0x32, 0x3B, 0x32, 0x3A, 0x31] = .ok 12 := by decide +kernel

/-- Settles O31: TPRS is of format N, and on a complete line its next state is that of the line's value. -/
theorem tprsReadsOneLine : Obligations.TprsReadsOneLine := by
  refine ⟨encodedAs_of_decodeN (fun w field => by simp only [decode, field]; rfl) (by decide),
    fun s line rest live input free => ⟨?empty, ?product, ?above, ?outside⟩, fun s => exec_tprs_endOfInput,
    fun s live input => exec_tprs_ok live input (by decide) lineByte_twelve⟩
  case empty =>
    rintro rfl
    exact exec_tprs_ok live input free rfl
  case product =>
    intro tokens isLine nonempty fits
    exact exec_tprs_ok live input free (isLine.lineByte_eq.trans (evalLine_product nonempty fits))
  case above =>
    intro tokens isLine above
    have nonempty : tokens ≠ [] := by
      rintro rfl
      exact absurd above (by decide)
    exact exec_tprs_error live input free (isLine.lineByte_eq.trans (evalLine_accRange nonempty above))
  case outside =>
    intro outside
    exact exec_tprs_error live input free (lineByte_corruption outside)

/-- Settles O32: each row of the table is one of the outcomes of looking for a line. -/
theorem tprsInputTable : Obligations.TprsInputTable := by
  refine ⟨fun s line rest input free => input ▸ takeLine_found line rest s.ist free, fun s => exec_tprs_endOfInput,
    fun s live empty failed => ?_, fun s live nonempty free ended => ?_, fun s live nonempty free failed => ?_,
    fun s => exec_tprs_holds⟩
  · exact exec_tprs_readFailure live (by simp [empty]) (by simp [failed]) fun _ => failed
  · exact exec_tprs_readFailure live free (by simp [ended]) fun empty => absurd empty nonempty
  · exact exec_tprs_readFailure live free (by simp [failed]) fun _ => failed

/-- Settles O33: the input is looked at first, and the value of a line only when it parses. -/
theorem tprsChecksInOrder : Obligations.TprsChecksInOrder := by
  refine ⟨fun s live free nonempty closed => ?input, fun s line rest live input free corrupt => ?grammar,
    fun s line rest tokens live input free ok above => ?value, fun s live input => ?priority⟩
  case input => exact exec_tprs_readFailure live free closed fun empty => absurd empty nonempty
  case grammar => exact exec_tprs_error live input free (by rw [lineByte, corrupt])
  case value => exact exec_tprs_error live input free (((parseLine_iff_isLine line tokens).mp ok).lineByte_eq.trans above)
  case priority =>
    exact exec_tprs_error (line := [0x31, 0x3A, 0x39, 0x3B, 0x78]) live input (by decide) (by decide +kernel)

end Sys2Proof.Machine
end

section
/-! The way of a byte through FACT, TFMT and TPRS back to itself (44_text_codec.md R143). -/

namespace Sys2Proof.Machine

variable {b : Byte} {ev : ExpVec}

/-- The factors to the power 0 may be left out of a product. -/
theorem prod_filter_pos_pow {α : Type} (f c : α → Nat) (l : List α) :
    ((l.filter fun i => 0 < c i).map fun i => f i ^ c i).prod = (l.map fun i => f i ^ c i).prod := by
  rw [← List.prod_map_filter_mul_prod_map_filter_not (fun i => 0 < c i) _ l]
  refine (Nat.mul_one _).symm.trans (congrArg _ (List.prod_eq_one fun x mem => ?_).symm)
  obtain ⟨i, zero, rfl⟩ := List.mem_map.mp mem
  have exponent : c i = 0 := by simpa using (List.mem_filter.mp zero).2
  rw [exponent, pow_zero]

/-- The product of a vector's tokens is the product of its slots (44_text_codec.md R143). -/
theorem tokenProduct_lineTokens (v : ExpVec) : tokenProduct (lineTokens v) = primeProduct (slotValue v) :=
  calc tokenProduct (lineTokens v)
    _ = (((List.range 55).filter fun i => 0 < slotValue v i).map fun i => slotFactor i ^ slotValue v i).prod :=
      congrArg List.prod (map_lineTokens (fun i c => slotFactor i ^ c) v)
    _ = ((List.range 55).map fun i => slotFactor i ^ slotValue v i).prod := prod_filter_pos_pow _ _ _
    _ = primeProduct (slotValue v) := prod_slots_eq_primeProduct _

/-- The line of a byte's vector is worth the byte (44_text_codec.md R143). -/
theorem Factorized.lineByte_lineBody (h : Factorized b ev) : lineByte (lineBody ev) = .ok b := by
  rw [(isLine_lineBody ev).lineByte_eq]
  cases h with
  | zero => rw [lineTokens_zeroVec]; rfl
  | one => decide +kernel
  | factors _ range =>
    have product : tokenProduct (lineTokens (slotsOfSweep 0 b.toNat)) = b.toNat :=
      (tokenProduct_lineTokens _).trans (primeProduct_factors range).1
    have nonempty : lineTokens (slotsOfSweep 0 b.toNat) ≠ [] := by
      intro empty
      rw [empty] at product
      exact absurd range (product ▸ by decide)
    rw [evalLine_product nonempty (by omega), product, BitVec.ofNat_toNat, BitVec.setWidth_eq]

/-- Settles O41: the three commands in turn, and TPRS on the line of the byte's vector. -/
theorem textRoundTrip : Obligations.TextRoundTrip := by
  intro b s r live liveReader
  obtain ⟨ev, answer, vector⟩ := exists_factorize b
  refine ⟨_, _, _, formatLine ev, (Effect.ldb s b).exec_eq live, exec_fact live answer, exec_tfmt live, rfl, fun rest => ?_⟩
  have input : formatLine ev ++ rest = lineBody ev ++ 0x0A :: rest := by rw [formatLine_eq, List.append_assoc]; rfl
  exact exec_tprs_ok liveReader input (isLine_lineBody ev).free vector.lineByte_lineBody

end Sys2Proof.Machine
end

section
/-! BFMT (45_binary_codec.md R150) and BPRS (R154): what they do with a record, and BPRS without one (R155). -/

namespace Sys2Proof.Machine

variable {s : State} {q : List Frag} {n : Byte} {body rest : List Byte}

/-- BFMT on a live block appends the record of its queue (45_binary_codec.md R150). -/
theorem exec_bfmt (live : s.err = none) : exec .bfmt s = .next (outPut (formatRecord Config.fragByteOrder s.fq) s) :=
  (Effect.bfmt s).exec_eq live

/-- The worked example's record (45_binary_codec.md R151). -/
theorem formatRecord_twelve :
    formatRecord .little [0x6, 0x2] = [0x02, 0x06, 0, 0, 0, 0, 0, 0, 0, 0x02, 0, 0, 0, 0, 0, 0, 0] := by decide

/-- Settles O34: BFMT is of format N, and what it appends is the record, whose count byte is `FCNT`. -/
theorem bfmtAppendsTheRecord : Obligations.BfmtAppendsTheRecord := by
  refine ⟨encodedAs_of_decodeN (fun w field => by simp only [decode, field]; rfl) (by decide), fun s => exec_bfmt,
    fun s bound => Nat.mod_eq_of_lt (by omega), fun s => formatRecord_length .little s.fq, fun s live queue => ?twelve⟩
  case twelve =>
    have appends := exec_bfmt live
    rw [queue, Config.fragByteOrder, formatRecord_twelve] at appends
    exact appends

/-- The bytes of a complete record are the record of the fragments read from it (45_binary_codec.md R154). -/
theorem formatRecord_readFragments (complete : body.length = 8 * n.toNat) :
    formatRecord .little (readFragments .little n.toNat body) = n :: body := by
  have count : BitVec.ofNat 8 (readFragments .little n.toNat body).length = n := by
    rw [readFragments_length, BitVec.ofNat_toNat, BitVec.setWidth_eq]
  have fields : (readFragments .little n.toNat body).flatMap (fragmentField .little) = body :=
    fields_readFragments n.toNat body complete
  rw [formatRecord, count, fields]

/-- BPRS at the clean end of the input sets `STATUS.EOS` (45_binary_codec.md R155). -/
theorem exec_bprs_endOfInput (live : s.err = none) (empty : s.ibuf = []) (ended : s.ist = .eos) :
    exec .bprs s = .next { s with eos := true } :=
  (Effect.endOfInput s .bprs (takeRecord_endOfInput_iff.mpr ⟨empty, ended⟩)).exec_eq live

/-- Settles O36: BPRS is of format N, and a complete record is that of the queue read from its body. -/
theorem bprsReadsOneRecord : Obligations.BprsReadsOneRecord := by
  refine ⟨encodedAs_of_decodeN (fun w field => by simp only [decode, field]; rfl) (by decide),
    fun s n body rest live input complete => ⟨readFragments .little n.toNat body, ?reads, readFragments_length _ _ _,
      fields_readFragments _ _ complete⟩, fun s => exec_bprs_endOfInput, fun s live input => ?twelve⟩
  case reads =>
    have bound : (readFragments .little n.toNat body).length ≤ 255 := by
      rw [readFragments_length]; omega
    exact exec_bprs_formatRecord live bound (by rw [input, Config.fragByteOrder, formatRecord_readFragments complete])
  case twelve =>
    exact exec_bprs_formatRecord live (by decide)
      (by rw [input, Config.fragByteOrder, formatRecord_twelve, List.append_nil])

/-- BPRS that finds its input incomplete and open holds (45_binary_codec.md R155, 60_exceptions.md R190). -/
theorem exec_bprs_holds (live : s.err = none) (holds : takeRecord s.ibuf s.ist = .holds) :
    exec .bprs s = .next { s with held := some .bprs } := (Effect.holds s .bprs holds).exec_eq live

/-- BPRS that cannot take a record raises the table's cause (45_binary_codec.md R155). -/
theorem exec_bprs_raises {c : Cause} (live : s.err = none) (fails : takeRecord s.ibuf s.ist = .fails c) :
    exec .bprs s = .next { s with err := some c } := (Effect.fails s .bprs c fails).exec_eq live

/-- What a short record is, by `IST` (45_binary_codec.md R155, R157). -/
theorem takeRecord_short (short : (n :: rest).length < 1 + 8 * n.toNat) :
    takeRecord (n :: rest) .opened = .holds ∧ takeRecord (n :: rest) .eos = .fails .corruption ∧
      takeRecord (n :: rest) .err = .fails .readFailure :=
  have incomplete := Nat.not_le.mpr short
  ⟨if_neg incomplete, if_neg incomplete, if_neg incomplete⟩

/-- Settles O37: each row of the table is one of the outcomes of looking for a record. -/
theorem bprsInputTable : Obligations.BprsInputTable := by
  refine ⟨fun n rest ist complete => if_pos complete, fun s => exec_bprs_endOfInput, fun s live empty failed => ?emptyErr,
    fun s n rest live input short ended => ?shortEos, fun s n rest live input short failed => ?shortErr,
    fun s live empty opened => ?emptyOpen, fun s n rest live input short opened => ?shortOpen⟩
  case emptyErr => exact exec_bprs_raises live (by rw [empty, failed]; rfl)
  case emptyOpen => exact exec_bprs_holds live (by rw [empty, opened]; rfl)
  case' shortEos | shortErr | shortOpen =>
    rw [input] at short
    obtain ⟨onOpen, onEos, onErr⟩ := takeRecord_short short
  case shortEos => exact exec_bprs_raises live (by rw [input, ended, onEos])
  case shortErr => exact exec_bprs_raises live (by rw [input, failed, onErr])
  case shortOpen => exact exec_bprs_holds live (by rw [input, opened, onOpen])

end Sys2Proof.Machine
end

section
/-! The way of a queue through BFMT and BPRS back to itself, and of a byte through both (45_binary_codec.md R159). -/

namespace Sys2Proof.Machine

/-- Settles O38: the count fits its byte, each field gives its fragment back, and the record's length is known. -/
theorem recordRestoresTheQueue : Obligations.RecordRestoresTheQueue := by
  refine fun o q rest ist bound => ⟨takeRecord_formatRecord o bound rest ist, readFragments_fields o q rest, ?left⟩
  rw [← formatRecord_length o, List.drop_left]

/-- Settles O40: BPRS undoes BFMT for every queue, and FDEC undoes FACT and FENC for the queue of a byte. -/
theorem binaryWireRoundTrip : Obligations.BinaryWireRoundTrip := by
  refine ⟨fun s r live bound liveReader => ?queue, fun b s r live liveReader => ?byte⟩
  case queue => exact ⟨_, _, exec_bfmt live, rfl, fun rest => exec_bprs_formatRecord liveReader bound rfl⟩
  case byte =>
    obtain ⟨ev, answer, vector⟩ := exists_factorize b
    exact ⟨_, _, _, _, _, (Effect.ldb s b).exec_eq live, exec_fact live answer, exec_fenc live, exec_bfmt live, rfl,
      fun rest => ⟨_, _, exec_bprs_formatRecord liveReader (toFragments_length_le ev) rfl,
        exec_fdec liveReader vector.toByte_toFragments, rfl, liveReader, rfl⟩⟩

end Sys2Proof.Machine
end

section
/-! The host access commands NOP, LDB, LDEV, PUSHF and CLRF (46_host_commands.md R165 to R169): their encodings, and what they do on a
live block. -/

namespace Sys2Proof.Machine

variable {s : State} {w : CmdWord}

/-- A command's encoding is what its legal words decode to: a must-be-zero bit makes any word of its opcode illegal
(30_encoding.md R75). -/
theorem encodedAs_of_decode {opcode : Byte} {command : CmdWord → Instr} (assigned : opcode.toNat ≤ 0x0B)
    (legal : ∀ w, opcodeField w = opcode → mbzBits w = 0 → decode w = .ok (command w)) : EncodedAs opcode command :=
  fun w field => ⟨legal w field, fun set _ live =>
    issueWord_illegal (decode_mbz_iff.mpr ⟨field ▸ assigned, set⟩) live⟩

/-- No bit of a PUSHF word must be zero (30_encoding.md R71). -/
theorem mbzBits_pushf (field : opcodeField w = 0x03) : mbzBits w = 0 := by
  rw [mbzBits, field, if_neg (by decide), if_neg (by decide), if_pos rfl]

/-- A legal word of opcode 1 is LDB of its low byte (30_encoding.md R71, R72). -/
theorem decode_ldb (field : opcodeField w = 0x01) (clear : mbzBits w = 0) : decode w = .ok (.ldb (lowByteField w)) := by
  have format : decode w = decodeB w .ldb := by simp only [decode, field]; rfl
  rw [mbzBits, if_pos field] at clear
  rw [format, decodeB_eq, if_pos clear]

/-- A legal word of opcode 2 is LDEV of its two bytes (30_encoding.md R71, R72). -/
theorem decode_ldev (field : opcodeField w = 0x02) (clear : mbzBits w = 0) :
    decode w = .ok (.ldev (lowByteField w) (highByteField w)) := by
  have format : decode w = decodeS w .ldev := by simp only [decode, field]; rfl
  rw [mbzBits, field, if_neg (by decide), if_pos rfl] at clear
  rw [format, decodeS_eq, if_pos clear]

/-- A word of opcode 3 is PUSHF of its argument field (30_encoding.md R71, R72). -/
theorem decode_pushf (field : opcodeField w = 0x03) : decode w = .ok (.pushf (argField w)) := by
  simp only [decode, field]; rfl

/-- NOP changes nothing, on a faulted block as on a live one (46_host_commands.md R165, 60_exceptions.md R184). -/
theorem exec_nop (s : State) : exec .nop s = .next s := by
  by_cases live : s.err = none
  · exact (Effect.nop s).exec_eq live
  · exact exec_of_faulted .nop live

/-- Settles O7: NOP is of format N, and both a live and a faulted block stay as they are. -/
theorem nopChangesNothing : Obligations.NopChangesNothing :=
  ⟨encodedAs_of_decodeN (fun w field => by simp only [decode, field]; rfl) (by decide), rfl, exec_nop⟩

/-- LDB on a live block writes its operand to `B` (46_host_commands.md R166). -/
theorem exec_ldb (live : s.err = none) (imm8 : Byte) : exec (.ldb imm8) s = .next (setB imm8 s) :=
  (Effect.ldb s imm8).exec_eq live

/-- Settles O8: LDB is of format B, and the example's word decodes to LDB of 12. -/
theorem ldbWritesB : Obligations.LdbWritesB :=
  ⟨encodedAs_of_decode (by decide) fun _ => decode_ldb, fun imm8 _ live => exec_ldb live imm8,
    fun s live => (issueWord_of_ok (i := .ldb 12) rfl s).trans (exec_ldb live 12)⟩

/-- LDEV of a slot number up to 54 writes that slot on a live block (46_host_commands.md R167). -/
theorem exec_ldev (live : s.err = none) {idx : Byte} (slot : idx.toNat < 55) (val : Byte) :
    exec (.ldev idx val) s = .next (setEv (s.ev.set idx.toNat val) s) :=
  (Effect.ldev s idx val ⟨idx.toNat, slot⟩ rfl).exec_eq live

/-- A write to a slot changes the value of that slot alone. -/
theorem slotValue_set (v : ExpVec) {j : Nat} (slot : j < 55) (val : Byte) (i : Nat) :
    slotValue (v.set j val) i = if j = i then val.toNat else slotValue v i := by
  by_cases inside : i < 55
  · rw [slotValue_of_lt _ inside, slotValue_of_lt _ inside, Vector.getElem_set, apply_ite BitVec.toNat]
  · rw [slotValue_ge _ (by omega), slotValue_ge _ (by omega), if_neg (by omega)]

/-- Settles O9: LDEV is of format S; its effect depends on whether its slot number names a slot. -/
theorem ldevWritesOneSlot : Obligations.LdevWritesOneSlot := by
  refine ⟨encodedAs_of_decode (by decide) fun _ => decode_ldev,
    fun idx val s live range => (Effect.ldevBad s idx val range).exec_eq live, fun idx val s live range => ?slot,
    fun s live => ?worked, fun s => issueWord_ldev_illegal rfl (by decide)⟩
  case slot =>
    have slot : idx.toNat < 55 := Nat.lt_succ_of_le range
    refine ⟨_, exec_ldev live slot val, ?_, fun i other => ?_⟩
    · rw [slotValue_set _ slot, if_pos rfl]
    · rw [slotValue_set _ slot, if_neg (Ne.symm other)]
  case worked =>
    exact ⟨_, (issueWord_of_ok (i := .ldev 1 2) rfl s).trans (exec_ldev live (by decide) 2), slotValue_set _ _ 2 1⟩

/-- PUSHF on a live block with room in its queue appends the fragment (46_host_commands.md R168). -/
theorem exec_pushf (live : s.err = none) (room : s.fq.length < 255) (frag : Frag) :
    exec (.pushf frag) s = .next (setFq (s.fq ++ [frag]) s) :=
  (Effect.pushf s frag room).exec_eq live

/-- Settles O10: PUSHF is of format F; its effect depends on whether the queue has room, as it has for both words of the example. -/
theorem pushfAppends : Obligations.PushfAppends := by
  refine ⟨encodedAs_of_decode (by decide) fun _ field _ => decode_pushf field, fun _ => mbzBits_pushf,
    fun frag s live full => (Effect.pushfFull s frag full.ge).exec_eq live, fun frag s live room => exec_pushf live room frag,
    fun s live empty => ⟨setFq [0x6] s, ?first, ?second, rfl⟩⟩
  case first =>
    have pushed := exec_pushf live (empty ▸ by decide) 0x6
    rw [empty] at pushed
    exact (issueWord_of_ok (i := .pushf 0x6) rfl s).trans pushed
  case second => exact (issueWord_of_ok (i := .pushf 0x2) rfl _).trans (exec_pushf (s := setFq [0x6] s) live (by simp) 0x2)

/-- Settles O11: CLRF is of format N; the empty queue decodes to 0 (no bit is set) and its record is the count byte. -/
theorem clrfEmptiesTheQueue : Obligations.ClrfEmptiesTheQueue := by
  refine ⟨encodedAs_of_decodeN (fun w field => by simp only [decode, field]; rfl) (by decide),
    fun s => (Effect.clrf s).exec_eq, fun s empty => ?count, fun s live empty => ?decoded, fun s live empty => ?record⟩
  case count => rw [fcnt, empty]; rfl
  case decoded => exact exec_fdec live (empty ▸ toByte_no_bit fun _ _ => rfl)
  case record =>
    have appends := exec_bfmt live
    rw [empty] at appends
    exact appends

end Sys2Proof.Machine
end

section
/-! A raise is precise and final (60_exceptions.md R184, R185), and the causes: their codes, and which command raises which (R180). -/

namespace Sys2Proof.Machine

variable {i : Instr} {s t : State} {w : CmdWord} {c : Cause}

/-- A raise whose cause `STATUS.ERR` shows is the raise of that cause. -/
theorem eq_raiseFault (raise : ∃ cause, t = raiseFault cause s) (shows : t.err = some c) : t = raiseFault c s := by
  obtain ⟨cause, rfl⟩ := raise
  cases shows
  rfl

/-- A command that takes a live block to a faulted one wrote the cause and nothing else (60_exceptions.md R184). -/
theorem exec_eq_raiseFault (live : s.err = none) (h : exec i s = .next t) (raised : t.err = some c) : t = raiseFault c s :=
  eq_raiseFault ((exec_effect live h).raises live (by simp [raised])) raised

/-- A word that takes a live block to a faulted one wrote the cause and nothing else (60_exceptions.md R184). -/
theorem issueWord_eq_raiseFault (live : s.err = none) (h : issueWord w s = .next t) (raised : t.err = some c) :
    t = raiseFault c s :=
  eq_raiseFault (issueWord_raises live h (by simp [raised])) raised

/-- The `fault` wire is 1 exactly on a faulted block (60_exceptions.md R192). -/
theorem faultWire_iff : faultWire s = true ↔ s.err ≠ none := bne_iff_ne.trans errCode_eq_zero_iff.not

/-- Settles O42: a raise writes the cause alone, a faulted block refuses every word and command, and its code is not 0. -/
theorem faultEntryIsPreciseAndFinal : Obligations.FaultEntryIsPreciseAndFinal :=
  ⟨fun _ _ _ _ => exec_eq_raiseFault, fun _ _ _ _ => issueWord_eq_raiseFault, fun w _ => issueWord_of_faulted w,
    fun i _ => exec_of_faulted i, fun _ => errCode_eq_zero_iff.not, fun _ => faultWire_iff,
    fun _ faulted ⟨_, _, live⟩ => faulted live⟩

/-- `STATUS.ERR` shows a cause's code exactly when it holds the cause (60_exceptions.md R180). -/
theorem errCode_eq_causeCode_iff : s.err = some c ↔ errCode s = causeCode c := by
  cases h : s.err with
  | none =>
    have positive := (causeCode_range c).1
    have code : errCode s ≠ causeCode c := by
      rw [errCode_eq_zero_iff.mpr h]
      exact fun zero => absurd (zero ▸ positive) (by decide)
    simp [code]
  | some cause =>
    rw [errCode, h, Option.some.injEq]
    exact ⟨congrArg causeCode, causeCode_injective⟩

/-- Which command raises which cause (60_exceptions.md R180); none raises `IllegalCommand` or `FactorResidue`. -/
inductive RaisedBy (s : State) : Instr → Cause → Prop
  | illegalOperand (idx val : Byte) (range : 54 < idx.toNat) : RaisedBy s (.ldev idx val) .illegalOperand
  | queueOverflow (frag : Frag) (full : 255 ≤ s.fq.length) : RaisedBy s (.pushf frag) .queueOverflow
  | accRange {i : Instr} (multiplies : i = .fdec ∨ i = .tprs) : RaisedBy s i .accRange
  | readFailure {i : Instr} (parses : i = .tprs ∨ i = .bprs) : RaisedBy s i .readFailure
  | corruption {i : Instr} (parses : i = .tprs ∨ i = .bprs) : RaisedBy s i .corruption

/-- Every raise of a command on a live block is listed (60_exceptions.md R180). -/
theorem Effect.raisedBy (e : Effect i s t) (live : s.err = none) (raised : t.err = some c) : RaisedBy s i c := by
  cases e with
  | ldevBad _ idx val range => cases raised; exact .illegalOperand idx val range
  | pushfFull _ frag full => cases raised; exact .queueOverflow frag full
  | factRaises _ cause h =>
    obtain ⟨ev, answer, -⟩ := exists_factorize s.b
    cases answer.symm.trans h
  | fdecRaises _ cause h =>
    cases raised
    cases toByte_error h
    exact .accRange (.inl rfl)
  | tprsRaises _ n cause _ h =>
    cases raised
    rcases lineByte_error h with rfl | rfl
    · exact .corruption (.inl rfl)
    · exact .accRange (.inr rfl)
  | fails _ p cause h =>
    cases raised
    rcases unitOutcome_fails h with rfl | rfl
    · exact .readFailure (parseInstr_eq p)
    · exact .corruption (parseInstr_eq p)
  | _ => cases live.symm.trans raised

/-- An effect that its command must have is the state it answers. -/
theorem Effect.eq_of_exec {t' : State} (e : Effect i s t') (live : s.err = none) (h : exec i s = .next t) : t = t' := by
  cases (e.exec_eq live).symm.trans h
  rfl

/-- LDEV of a number above 54 raises `IllegalOperand`, and nothing else does (46_host_commands.md R167). -/
theorem raises_illegalOperand_iff (live : s.err = none) (h : exec i s = .next t) :
    t.err = some .illegalOperand ↔ ∃ idx val, i = .ldev idx val ∧ 54 < idx.toNat := by
  constructor
  · intro raised
    cases (exec_effect live h).raisedBy live raised with
    | illegalOperand idx val range => exact ⟨idx, val, rfl, range⟩
  · rintro ⟨idx, val, rfl, range⟩
    rw [(Effect.ldevBad s idx val range).eq_of_exec live h, raiseFault_err]

/-- PUSHF on a full queue raises `QueueOverflow`, and nothing else does (46_host_commands.md R168). -/
theorem raises_queueOverflow_iff (live : s.err = none) (h : exec i s = .next t) :
    t.err = some .queueOverflow ↔ (∃ frag, i = .pushf frag) ∧ 255 ≤ s.fq.length := by
  constructor
  · intro raised
    cases (exec_effect live h).raisedBy live raised with
    | queueOverflow frag full => exact ⟨⟨frag, rfl⟩, full⟩
  · rintro ⟨⟨frag, rfl⟩, full⟩
    rw [(Effect.pushfFull s frag full).eq_of_exec live h, raiseFault_err]

/-- Settles O43: the codes are those of the causes, different from each other and from 0, and the raises are those of `RaisedBy`. -/
theorem causesAndTheirCommands : Obligations.CausesAndTheirCommands := by
  refine ⟨fun s => ⟨errCode_eq_causeCode_iff, errCode_eq_causeCode_iff, errCode_eq_causeCode_iff, errCode_eq_causeCode_iff,
    errCode_eq_causeCode_iff, errCode_eq_causeCode_iff, errCode_eq_causeCode_iff, errCode_eq_zero_iff.symm, errCode_le s⟩,
    fun i s t live h => ?_⟩
  have listed {c : Cause} (raised : t.err = some c) : RaisedBy s i c := (exec_effect live h).raisedBy live raised
  refine ⟨fun raised => ?illegalCommand, raises_illegalOperand_iff live h, fun raised => ?factorResidue,
    fun raised => ?accRange, fun raised => ?readFailure, fun raised => ?corruption, raises_queueOverflow_iff live h⟩
  case illegalCommand | factorResidue => cases listed raised
  case accRange => cases listed raised with | accRange multiplies => exact multiplies
  case readFailure => cases listed raised with | readFailure parses => exact parses
  case corruption => cases listed raised with | corruption parses => exact parses

end Sys2Proof.Machine
end

section
/-! When a command holds (60_exceptions.md R190), and what the clean end of the input leaves (R189, 70_reset_and_hazards.md R217). -/

namespace Sys2Proof.Machine

variable {i : Instr} {s t : State} {c : ParseCommand} {ibuf : List Byte} {ist : InputStatus}

/-- TPRS finds its input incomplete exactly when it is open and has no terminator (44_text_codec.md R137). -/
theorem takeLine_holds_iff : takeLine ibuf ist = .holds ↔ ist = .opened ∧ (0x0A : Byte) ∉ ibuf := by
  rcases line_or_none ibuf with ⟨line, rest, rfl, free⟩ | free
  · rw [takeLine_found line rest ist free]
    simp
  · rw [takeLine_none ibuf ist free]
    cases ist with
    | opened => exact ⟨fun _ => ⟨rfl, free⟩, fun _ => rfl⟩
    | err => simp
    | eos => by_cases empty : ibuf = [] <;> simp [empty]

/-- BPRS finds its input incomplete exactly when it is open and empty or shorter than its record (45_binary_codec.md R155). -/
theorem takeRecord_holds_iff :
    takeRecord ibuf ist = .holds ↔ ist = .opened ∧ ∀ n rest, ibuf = n :: rest → ibuf.length < 1 + 8 * n.toNat := by
  cases ibuf with
  | nil => cases ist <;> simp [takeRecord]
  | cons count rest =>
    have whole : (∀ n tail, count :: rest = n :: tail → (count :: rest).length < 1 + 8 * n.toNat) ↔
        (count :: rest).length < 1 + 8 * count.toNat :=
      ⟨fun short => short count rest rfl, fun short n tail input => by cases input; exact short⟩
    rw [whole, takeRecord_cons, List.length_cons]
    by_cases complete : 1 + 8 * count.toNat ≤ rest.length + 1
    · simp [complete, Nat.not_lt.mpr complete]
    · cases ist <;> simp [complete, Nat.not_le.mp complete]

/-- A parse command can hold on an open input only (60_exceptions.md R190). -/
theorem opened_of_unitOutcome_holds (h : unitOutcome c s = .holds) : s.ist = .opened := by
  cases c with
  | tprs => exact (takeLine_holds_iff.mp h).1
  | bprs => exact (takeRecord_holds_iff.mp h).1

/-- A command recorded as holding is the parse command that looked for a unit in vain, and the record is the only change
(60_exceptions.md R190). -/
theorem Effect.holds_of_held (e : Effect i s t) (free : s.held = none) (held : t.held = some c) :
    i = parseInstr c ∧ unitOutcome c s = .holds ∧ t = holdOn c s := by
  cases e with
  | holds _ p h => cases held; exact ⟨rfl, h, rfl⟩
  | _ => cases free.symm.trans held

/-- A parse command holds exactly when its outcome table says so (60_exceptions.md R190). -/
theorem exec_parseInstr_holds_iff (live : s.err = none) (free : s.held = none) :
    exec (parseInstr c) s = .next (holdOn c s) ↔ unitOutcome c s = .holds := by
  constructor
  · intro h
    obtain ⟨-, holds, -⟩ := (exec_effect live h).holds_of_held free rfl
    exact holds
  · exact fun holds => (Effect.holds s c holds).exec_eq live

/-- Settles O46: what is recorded as a hold is one, and the outcome tables say when there is one. -/
theorem holdsExactlyOnOpenIncompleteInput : Obligations.HoldsExactlyOnOpenIncompleteInput := by
  refine ⟨fun i s t c live free h held => ?recorded,
    fun s live free => (exec_parseInstr_holds_iff (c := .tprs) live free).trans takeLine_holds_iff,
    fun s live free => (exec_parseInstr_holds_iff (c := .bprs) live free).trans takeRecord_holds_iff⟩
  obtain ⟨command, holds, same⟩ := (exec_effect live h).holds_of_held free held
  exact ⟨command, opened_of_unitOutcome_holds holds, same⟩

/-- Settles O60: both parse commands meet the clean end, and the queue they leave is the one FDEC decodes. -/
theorem endOfInputDeliversNothing : Obligations.EndOfInputDeliversNothing := fun s live empty ended =>
  ⟨exec_tprs_endOfInput live empty ended, exec_bprs_endOfInput live empty ended,
    fun _ answer => exec_fdec (s := setEos true s) live answer⟩

end Sys2Proof.Machine
end

section
/-! Reset (70_reset_and_hazards.md R210), and the hazard of FENC, which consumes the vector it encodes (R216). -/

namespace Sys2Proof.Machine

variable {s : State}

/-- With nothing holding, the step of the host's `rst` answers the reset state with the rest of the host's list
(70_reset_and_hazards.md R210). -/
theorem step_assertReset {moves : List HostMove} (free : s.held = none) (next : s.script = .assertReset :: moves) :
    step s = .next { State.reset with script := moves } := step_free free next

/-- Settles O53: the step of `rst` is the reset, and a step that leaves the faulted state has `rst` for its move. -/
theorem resetRestoresEverything : Obligations.ResetRestoresEverything := by
  refine ⟨fun s moves => step_assertReset, fun s t faulted h live => ?leaves⟩
  case leaves =>
    rcases (step_effect h).err_of_faulted faulted with kept | ⟨free, first, -⟩
    · exact absurd (kept.symm.trans live) faulted
    · have next : s.script = .assertReset :: s.script.tail := (List.cons_head?_tail first).symm
      cases (step_assertReset free next).symm.trans h
      exact ⟨first, rfl⟩

/-- TFMT on a live block with the all-zero vector appends an empty line (44_text_codec.md R132). -/
theorem exec_tfmt_zeroVec (live : s.err = none) (zero : s.ev = zeroVec) : exec .tfmt s = .next (outPut [0x0A] s) := by
  rw [exec_tfmt live, zero, formatLine_zeroVec]

/-- TPRS on an empty line writes 0 to `B` (44_text_codec.md R140). -/
theorem exec_tprs_emptyLine {rest : List Byte} (live : s.err = none) (input : s.ibuf = 0x0A :: rest) :
    exec .tprs s = .next { s with b := 0, ibuf := rest, eos := false } :=
  exec_tprs_ok (line := []) live input List.not_mem_nil ((lineByte_eq_zero_iff []).mpr rfl)

/-- Settles O59: FACT answers for every byte, FENC leaves the all-zero vector, whose line is empty, and the empty line is 0. -/
theorem fencConsumesTheVector : Obligations.FencConsumesTheVector := by
  intro s r live liveReader
  obtain ⟨ev, answer, -⟩ := exists_factorize s.b
  exact ⟨_, _, exec_fact live answer, exec_fenc live, slotValue_zeroVec, exec_tfmt_zeroVec live rfl,
    fun rest => exec_tprs_emptyLine liveReader rfl⟩

end Sys2Proof.Machine
end
